-- ==== Sys2Proof/Word.lean ====
section
/-! DEFINITION. The word, its signed reading, and the two small index types (00_scope.md R5, R6). -/

namespace Sys2Proof

/-- A 32-bit word: a register or a program word (R6, XLEN = 32 of R5). -/
abbrev Word := BitVec 32

/-- The signed value of a word, in two's complement (R6). -/
abbrev sint (w : Word) : Int := w.toInt

/-- A slot number of the register file, 0 to 7 (R5: N = 8). -/
abbrev Slot := Fin 8

/-- The number of an operation, 0 to 6 (R5: OPCODE_COUNT = 7). -/
abbrev OpNum := Fin 7

end Sys2Proof
end

