-- ==== Sys2Proof/Machine/State.lean ====
section
/-! DEFINITION. The machine's state as plain data (10_state.md R20), its value after reset (R30), and why a step can
stop. The program store, its length and the trace port's output stand in State because a step is given a State and
nothing else (log entries 1 to 3). -/

namespace Sys2Proof.Machine

/-- The engine state STATE (10_state.md R28). -/
inductive EngineState where
  | running | ok | halted | divisionByZero
  deriving DecidableEq, Repr

/-- The three terminal conditions a run can end in (60_exceptions.md R140). -/
inductive Status where
  | ok | halted | divisionByZero
  deriving DecidableEq, Repr

/-- A cell of the program store: a word address and the 32-bit word it holds (20_memory.md R40, R44). -/
abbrev Cell := Nat × Word

/-- The words of the program store, in one canonical form: addresses strictly rising, no word 0 listed. -/
abbrev Memory := List Cell

/-- The snapshot in a trace record (60_exceptions.md R153). -/
structure Snapshot where
  x   : Vector Word 8
  pc  : Word
  rxi : Slot
  ryi : Slot
  deriving DecidableEq, Repr

/-- The decoded operand values in a pre-execution record (60_exceptions.md R156). -/
inductive OperandValues where
  /-- ADD, SUB, MUL, DIV, MOD: the two source registers' contents and the destination slot. -/
  | registers (a b : Word) (dest : Slot)
  /-- LDS: the literal, RY's new slot, the destination slot. -/
  | literal (value : Word) (ry dest : Slot)
  /-- HALT: none. -/
  | none
  deriving DecidableEq, Repr

/-- A record of the trace port (60_exceptions.md R153). -/
inductive TraceRecord where
  /-- One instruction about to take effect. -/
  | pre (pc : Word) (base eff : OpNum) (differs : Bool) (operands : OperandValues) (snapshot : Snapshot)
  /-- The terminal status and the machine after it. -/
  | final (status : Status) (snapshot : Snapshot)
  deriving DecidableEq, Repr

/-- The whole machine (10_state.md R20), with the run's program, its length and the trace it has put out. -/
structure State where
  /-- The register file x[0] .. x[7] (R21). -/
  x       : Vector Word 8
  /-- The slot RX points at (R23, R24). -/
  rxi     : Slot
  /-- The slot RY points at (R23, R24). -/
  ryi     : Slot
  /-- The program counter, a word address (R26). -/
  pc      : Word
  /-- The engine state STATE (R28). -/
  state   : EngineState
  /-- The program store (20_memory.md R40), supplied from outside (log entry 1). -/
  prog    : Memory
  /-- The program length L in words (20_memory.md R41), supplied from outside (log entry 1). -/
  progLen : Nat
  /-- The trace records put out since reset, oldest first (60_exceptions.md R153; log entry 3). -/
  trace   : List TraceRecord
  deriving DecidableEq, Repr

/-- Why a step stops without a next state. -/
inductive Fault where
  /-- Raised by `step` in a state whose STATE is terminal: such a machine has no step (10_state.md R28). Safe: the
  model stops where the machine has stopped (log entry 4). -/
  | stopped (status : Status)
  /-- Raised by `step` when the four words at `pc` do not all lie below L (20_memory.md R42, R47). It cannot arise
  from a valid state with a well-formed program. Safe (log entry 6). -/
  | absentWord
  deriving DecidableEq, Repr

/-- What the model gives no meaning. -/
inductive Refusal where
  /-- An instruction with no meaning yet, by its mnemonic; raised only by a refused arm of `exec`, and there is none.
  Safe. -/
  | notModelled (mnemonic : String)
  /-- Raised by `step` and by a run when the program's length is not well formed (20_memory.md R41). Safe (log entry 5). -/
  | malformedProgram
  /-- Raised by `step` and by a run in a state that is not valid (10_state.md R31). Safe (log entry 5). -/
  | invalidState
  deriving DecidableEq, Repr

/-- The machine right after reset (10_state.md R30, 70_reset_and_hazards.md R170). No program has been supplied yet:
the store is empty and L = 0 (DESIGN CHOICE, log entry 2), and the trace is empty (log entry 3). -/
def State.reset : State where
  x := Vector.replicate 8 0
  rxi := 0
  ryi := 0
  pc := 0
  state := .running
  prog := []
  progLen := 0
  trace := []

end Sys2Proof.Machine
end

