-- ==== Sys2Proof/Machine/Flags.lean ====
section
/-! DEFINITION. The machine has no flags (10_state.md R29). The one condition an instruction computes is the zero
divisor (41_arithmetic.md R109); it stands here with the integer quotient and remainder (00_scope.md R7). -/

namespace Sys2Proof.Machine

/-- The divisor test of DIV and MOD (41_arithmetic.md R109): on the register's value. -/
abbrev ZeroDivisor (b : Word) : Prop := sint b = 0

/-- The quotient rounded toward zero, for a non-zero divisor (00_scope.md R7). -/
def tdiv (a b : Int) : Int := Int.tdiv a b

/-- The remainder of truncating division, for a non-zero divisor (00_scope.md R7). -/
def trem (a b : Int) : Int := a - b * tdiv a b

end Sys2Proof.Machine
end

