-- ==== Sys2Proof/Config.lean ====
section
/-! DEFINITION. The parameters this hardware fixes (00_scope.md R5). The spec leaves no value open, so there is no
free value here. The widths N = 8 and OPCODE_COUNT = 7 stand in the types Slot and OpNum of Word.lean. -/

namespace Sys2Proof

/-- Words of one instruction, and what a completed instruction adds to `pc` (R5: STRIDE). -/
abbrev Config.stride : Nat := 4

/-- The largest program length admitted (R5: PROG_LEN_MAX, the spec's decision D8; log entry 14). -/
abbrev Config.progLenMax : Nat := 2147483644

end Sys2Proof
end

