-- ==== Sys2Proof/Syntax.lean ====
section
/-! DEFINITION. The instructions: one constructor per row of spec/opcode_table.json. An instruction carries its three
operand words whole, in the order op1, op2, result (30_encoding.md R60, R61, R69): how a word is read, as a register
or as a literal, is settled by the operand forms of Machine/Operands.lean (R65, R66). -/

namespace Sys2Proof

/-- The seven operations (30_encoding.md R63). -/
inductive Operation where
  | halt | add | sub | mul | div | mod | lds
  deriving DecidableEq, Repr

/-- An instruction as it is dispatched: the operation that runs and its three operand words (40 R90, 30 R69). -/
inductive Instr where
  /-- HALT: the operand words are fetched and ignored (43_halt.md R130). -/
  | halt (op1 op2 result : Word)
  /-- ADD (41_arithmetic.md R101). -/
  | add (op1 op2 result : Word)
  /-- SUB (41_arithmetic.md R102). -/
  | sub (op1 op2 result : Word)
  /-- MUL (41_arithmetic.md R103). -/
  | mul (op1 op2 result : Word)
  /-- DIV (41_arithmetic.md R104). -/
  | div (op1 op2 result : Word)
  /-- MOD (41_arithmetic.md R105). -/
  | mod (op1 op2 result : Word)
  /-- LDS: op1 is a literal, op2 names RY's new slot (42_lds.md R120). -/
  | lds (op1 op2 result : Word)
  deriving DecidableEq, Repr

/-- The operation an instruction performs. -/
def Instr.operation : Instr → Operation
  | .halt _ _ _ => .halt
  | .add _ _ _ => .add
  | .sub _ _ _ => .sub
  | .mul _ _ _ => .mul
  | .div _ _ _ => .div
  | .mod _ _ _ => .mod
  | .lds _ _ _ => .lds

/-- The four words of an instruction as they stand in the program store (30_encoding.md R60, format W4). -/
structure Encoded where
  word0  : Word
  op1    : Word
  op2    : Word
  result : Word
  deriving DecidableEq, Repr

end Sys2Proof
end

