-- ==== Sys2Proof/Decode.lean ====
section
/-! DEFINITION. The integer helpers of 00_scope.md R7 that decoding needs, the opcode scrambler
(40_fetch_decode_dispatch.md R83 to R89), the decoder, and the encoder. Which instruction four words are depends on the
scrambler's product, so the decoder takes that product as an argument. -/

namespace Sys2Proof

/-- Euclidean remainder (00_scope.md R7): in 0 .. m-1 for a positive m. -/
abbrev emod (z m : Int) : Int := z % m

/-- What a 32-bit register holds after the integer z is written to it (00_scope.md R7). -/
def wrap32 (z : Int) : Word := BitVec.ofInt 32 z

/-- A number of 0 .. 6, by Euclidean remainder (30_encoding.md R62, 40 R86). -/
def residue7 (z : Int) : OpNum := ⟨(emod z 7).toNat, by unfold emod; omega⟩

/-- The opcode map, number to operation (30_encoding.md R63, the spec's decision D1; log entry 7). -/
def Operation.ofNumber : OpNum → Operation
  | 0 => .halt
  | 1 => .add
  | 2 => .sub
  | 3 => .mul
  | 4 => .div
  | 5 => .mod
  | 6 => .lds

/-- The opcode map, operation to number (30_encoding.md R63; log entry 7). -/
def Operation.number : Operation → OpNum
  | .halt => 0
  | .add => 1
  | .sub => 2
  | .mul => 3
  | .div => 4
  | .mod => 5
  | .lds => 6

/-- The base opcode: word 0 reduced (30_encoding.md R62, 40 R83). -/
def baseOf (word0 : Word) : OpNum := residue7 (sint word0)

/-- The scrambler's product P, the low 32 bits of the exact product (40 R84, the spec's decision D2; log entry 8). -/
def scrambleProduct (rxValue ryValue : Word) : Word := wrap32 (sint rxValue * sint ryValue)

/-- The effective opcode of a base opcode under the product P: the sum is exact (40 R83, R85; log entry 9). -/
def effOf (base : OpNum) (p : Word) : OpNum := residue7 ((base.val : Int) + sint p)

/-- The opcode scrambler (40 R83). -/
def resolve (word0 rxValue ryValue : Word) : OpNum :=
  effOf (baseOf word0) (scrambleProduct rxValue ryValue)

/-- The instruction an operation makes of three operand words (30_encoding.md R66, 40 R90). -/
def Operation.instr (o : Operation) (op1 op2 result : Word) : Instr :=
  match o with
  | .halt => .halt op1 op2 result
  | .add => .add op1 op2 result
  | .sub => .sub op1 op2 result
  | .mul => .mul op1 op2 result
  | .div => .div op1 op2 result
  | .mod => .mod op1 op2 result
  | .lds => .lds op1 op2 result

/-- The instruction four fetched words are under the product P (30_encoding.md section 6). -/
def Encoded.instr (e : Encoded) (p : Word) : Instr :=
  (Operation.ofNumber (effOf (baseOf e.word0) p)).instr e.op1 e.op2 e.result

/-- Why a list of words is no instruction. Four words always are one (30_encoding.md R67). -/
inductive DecodeError where
  /-- Fewer than the four words of an instruction (30_encoding.md R68). -/
  | truncated
  deriving DecidableEq, Repr

/-- Reads one instruction from the front of a list of words, under the product P, and answers the words after it. -/
def decode (p : Word) : List Word → Except DecodeError (Instr × List Word)
  | word0 :: op1 :: op2 :: result :: rest => .ok (Encoded.instr ⟨word0, op1, op2, result⟩ p, rest)
  | _ => .error .truncated

/-- Word 0 that makes the operation numbered n run under the product P: the base opcode `emod(n - P, 7)`
(40 R95), in canonical form (30_encoding.md R71). DESIGN CHOICE among the word's encodings: log entry 18. -/
def encodeWord0 (p : Word) (n : OpNum) : Word := wrap32 (emod ((n.val : Int) - sint p) 7)

/-- The four words that run as the given instruction under the product P. With P = 0 these are the canonical words of
30_encoding.md R69, R71. -/
def encode (p : Word) (i : Instr) : List Word :=
  let word0 := encodeWord0 p i.operation.number
  match i with
  | .halt op1 op2 result => [word0, op1, op2, result]
  | .add op1 op2 result => [word0, op1, op2, result]
  | .sub op1 op2 result => [word0, op1, op2, result]
  | .mul op1 op2 result => [word0, op1, op2, result]
  | .div op1 op2 result => [word0, op1, op2, result]
  | .mod op1 op2 result => [word0, op1, op2, result]
  | .lds op1 op2 result => [word0, op1, op2, result]

/-- The four words of an instruction whose bits are w, bit 0 the least significant of word 0 and each later word's
bits counting on, every bit from nbits up being 0. DEDUCED numbering: log entry 19. -/
def tableWords (nbits w : Nat) : List Word :=
  let v := w % 2 ^ nbits
  [BitVec.ofNat 32 v, BitVec.ofNat 32 (v / 2 ^ 32), BitVec.ofNat 32 (v / 2 ^ 64), BitVec.ofNat 32 (v / 2 ^ 96)]

/-- The instruction the decoder reads from table bits under the product 0, the one in force after reset
(70_reset_and_hazards.md R172). -/
def decodeTableWord (nbits w : Nat) : Option Instr :=
  match decode 0 (tableWords nbits w) with
  | .ok (i, _) => some i
  | .error _ => none

end Sys2Proof
end

