-- ==== Sys2Proof/Machine/Operands.lean ====
section
/-! DEFINITION. The operand forms (30_encoding.md R65, R66) and the accesses to registers, index registers and program
store that they stand on (00_scope.md R8, 10_state.md R21 to R25). -/

namespace Sys2Proof.Machine

/-- Register form: the slot an operand word names (00_scope.md R7, 10_state.md R22). -/
def idx (v : Word) : Slot := ⟨(emod (sint v) 8).toNat, by unfold emod; omega⟩

/-- Literal form: the word as it stands (30_encoding.md R65, 42_lds.md R123). -/
def literal (v : Word) : Word := v

/-- Read of a slot (00_scope.md R8). -/
def State.slot (s : State) (i : Slot) : Word := s.x[i.val]

/-- Read of the register an operand word names. -/
def State.source (s : State) (v : Word) : Word := s.slot (idx v)

/-- Write of a word to a slot (00_scope.md R8). -/
def State.setSlot (s : State) (i : Slot) (w : Word) : State := { s with x := s.x.set i.val w }

/-- The RX value, read afresh (10_state.md R23). -/
def State.rxValue (s : State) : Word := s.slot s.rxi

/-- The RY value, read afresh (10_state.md R23). -/
def State.ryValue (s : State) : Word := s.slot s.ryi

/-- The scrambler's product with the current RX and RY values (40 R84, R87). -/
def State.product (s : State) : Word := scrambleProduct s.rxValue s.ryValue

/-- Redirect of RY to a slot (00_scope.md R8). -/
def State.redirectRy (s : State) (j : Slot) : State := { s with ryi := j }

/-- The operand values of a pre-execution record, by effective operation (60_exceptions.md R156; log entry 15). -/
def State.operandValues (s : State) (i : Instr) : OperandValues :=
  match i with
  | .halt _ _ _ => .none
  | .add op1 op2 result => .registers (s.source op1) (s.source op2) (idx result)
  | .sub op1 op2 result => .registers (s.source op1) (s.source op2) (idx result)
  | .mul op1 op2 result => .registers (s.source op1) (s.source op2) (idx result)
  | .div op1 op2 result => .registers (s.source op1) (s.source op2) (idx result)
  | .mod op1 op2 result => .registers (s.source op1) (s.source op2) (idx result)
  | .lds op1 op2 result => .literal (literal op1) (idx op2) (idx result)

end Sys2Proof.Machine
end

