-- ==== Sys2Proof/WellFormed.lean ====
section
/-! DEFINITION. What is well formed: every instruction (30_encoding.md R67: no operand word is illegal), and a program
whose length meets 20_memory.md R41. -/

namespace Sys2Proof

/-- Every instruction is well formed: any operand word is legal in both operand forms (R65, R67). -/
def Instr.wellFormed : Instr → Bool
  | .halt _ _ _ => true
  | .add _ _ _ => true
  | .sub _ _ _ => true
  | .mul _ _ _ => true
  | .div _ _ _ => true
  | .mod _ _ _ => true
  | .lds _ _ _ => true

/-- A well-formed program length: a multiple of 4, at most PROG_LEN_MAX (20_memory.md R41). -/
abbrev ProgLenOk (len : Nat) : Prop := len % Config.stride = 0 ∧ len ≤ Config.progLenMax

end Sys2Proof
end

