-- ==== Sys2Proof/Machine/Ops.lean ====
section
/-! DEFINITION. The shared operations: the program store, completing an instruction, ending a run (the one shared entry
into a terminal condition), the trace port, and what the host does to the block outside a run. -/

namespace Sys2Proof.Machine

/-! ### The program store (20_memory.md) -/

/-- The word a store holds at an address: an unlisted address holds the word 0 (log entry 2). -/
def Memory.read : Memory → Nat → Word
  | [], _ => 0#32
  | (b, w) :: m, a => if b = a then w else Memory.read m a

/-- The store with one word replaced, in canonical form again. Only the host loads programs: no rule of the machine
writes the store (20_memory.md R43). -/
def Memory.write : Memory → Nat → Word → Memory
  | [], a, v => if v = 0#32 then [] else [(a, v)]
  | (b, w) :: m, a, v =>
    if b < a then (b, w) :: Memory.write m a v
    else if b = a then (if v = 0#32 then m else (a, v) :: m)
    else if v = 0#32 then (b, w) :: m
    else (a, v) :: (b, w) :: m

/-- Every listed address is at least `lo`, the addresses rise strictly, and no word 0 is listed. -/
def Memory.wfFrom (lo : Nat) : Memory → Bool
  | [] => true
  | (a, w) :: m => decide (lo ≤ a) && decide (w ≠ 0#32) && Memory.wfFrom (a + 1) m

/-- The canonical form of a store. -/
def Memory.wf (m : Memory) : Bool := Memory.wfFrom 0 m

/-- The store with consecutive words written from an address on. -/
def Memory.writeWords (m : Memory) (a : Nat) : List Word → Memory
  | [] => m
  | w :: ws => Memory.writeWords (Memory.write m a w) (a + 1) ws

/-- The n words from an address on. -/
def Memory.readWords (m : Memory) (a : Nat) : Nat → List Word
  | 0 => []
  | n + 1 => Memory.read m a :: Memory.readWords m (a + 1) n

/-- MemRead (20_memory.md R42): defined only when all the words lie below L. -/
def State.memRead (s : State) (a n : Nat) : Option (List Word) :=
  if a + n ≤ s.progLen then some (s.prog.readWords a n) else none

/-! ### The trace port (60_exceptions.md) -/

/-- The snapshot of a state (60_exceptions.md R153). -/
def State.snapshot (s : State) : Snapshot := ⟨s.x, s.pc, s.rxi, s.ryi⟩

/-- Puts one record on the trace port (00_scope.md R8): no other state changes (60_exceptions.md R155). -/
def State.emit (s : State) (r : TraceRecord) : State := { s with trace := s.trace ++ [r] }

/-! ### Completing an instruction, and ending a run -/

/-- Completion: pc <- pc + 4, STATE stays (40 R91). -/
def State.complete (s : State) : State := { s with pc := s.pc + BitVec.ofNat 32 Config.stride }

/-- The value of STATE for a terminal condition (60_exceptions.md R140). -/
def Status.engineState : Status → EngineState
  | .ok => .ok
  | .halted => .halted
  | .divisionByZero => .divisionByZero

/-- Entry into a terminal condition (60_exceptions.md R147): STATE is set, nothing is saved, no register, index register
or pc is written, and the final record goes out (R154). `halt()` and `raise DivisionByZero()` of 00_scope.md R8 and the
Ok ending of 40 R81 are this operation. There is no return from it (R148). -/
def State.endRun (s : State) (st : Status) : State :=
  ({ s with state := st.engineState }).emit (.final st s.snapshot)

/-! ### The register operations the meanings share (41_arithmetic.md R100) -/

/-- Two sources read before the write, an exact result, wrapped into the destination; then completion. -/
def State.arith (s : State) (f : Int → Int → Int) (op1 op2 result : Word) : State :=
  (s.setSlot (idx result) (wrap32 (f (sint (s.source op1)) (sint (s.source op2))))).complete

/-- The same, but a zero divisor raises DivisionByZero before anything is written (41_arithmetic.md R109). -/
def State.divide (s : State) (f : Int → Int → Int) (op1 op2 result : Word) : State :=
  if ZeroDivisor (s.source op2) then s.endRun .divisionByZero else s.arith f op1 op2 result

/-! ### Validity (10_state.md R31, 20_memory.md R41) -/

/-- A valid state (10_state.md R31). RXI and RYI denote a slot by their type. -/
abbrev State.Valid (s : State) : Prop :=
  0 ≤ sint s.pc ∧ sint s.pc % 4 = 0 ∧ sint s.pc ≤ (s.progLen : Int)

/-- The terminal condition a value of STATE is, if it is one (10_state.md R28). -/
def EngineState.status : EngineState → Option Status
  | .running => none
  | .ok => some .ok
  | .halted => some .halted
  | .divisionByZero => some .divisionByZero

/-! ### The host's side (00_scope.md R9, 60_exceptions.md R158) -/

/-- The store that holds the given words from an address on. -/
def Memory.ofWords (a : Nat) : List Word → Memory
  | [] => []
  | w :: ws => if w = 0#32 then Memory.ofWords (a + 1) ws else (a, w) :: Memory.ofWords (a + 1) ws

/-- The host supplies a program (60_exceptions.md R158). -/
def State.loadProgram (s : State) (ws : List Word) : State :=
  { s with prog := Memory.ofWords 0 ws, progLen := ws.length }

/-- The reset input: every piece of state to its reset value, the program store untouched (70_reset_and_hazards.md R170,
R171). The trace begins anew (log entry 3). -/
def State.applyReset (s : State) : State := { State.reset with prog := s.prog, progLen := s.progLen }

/-- The port done (00_scope.md R9). -/
def State.done (s : State) : Bool := s.state != .running

/-- The code of a terminal status (60_exceptions.md R141, the spec's decision D7; log entry 13). -/
def Status.code : Status → BitVec 2
  | .ok => 0
  | .halted => 1
  | .divisionByZero => 2

/-- The port status_code, when done (00_scope.md R9). -/
def State.statusCode (s : State) : Option (BitVec 2) := s.state.status.map Status.code

/-- The host writes instruction words at pc, the program growing to hold them if it is shorter (log entry 20). -/
def State.placeAtPc (s : State) (ws : List Word) : State :=
  { s with prog := s.prog.writeWords s.pc.toNat ws, progLen := max s.progLen (s.pc.toNat + ws.length) }

end Sys2Proof.Machine
end

