-- ==== Sys2Proof/Machine/Arithmetic.lean ====
section
/-! DEFINITION. ADD, SUB, MUL, DIV, MOD (41_arithmetic.md). -/

namespace Sys2Proof.Machine

/-- ADD (41_arithmetic.md R101, overflow by R106). -/
def execAdd (op1 op2 result : Word) (s : State) : Host.Outcome State Fault Refusal :=
  .next (s.arith (fun a b => a + b) op1 op2 result)

/-- SUB (41_arithmetic.md R102, overflow by R106): the second operand is subtracted. -/
def execSub (op1 op2 result : Word) (s : State) : Host.Outcome State Fault Refusal :=
  .next (s.arith (fun a b => a - b) op1 op2 result)

/-- MUL (41_arithmetic.md R103, overflow by R106): the low 32 bits of the product. -/
def execMul (op1 op2 result : Word) (s : State) : Host.Outcome State Fault Refusal :=
  .next (s.arith (fun a b => a * b) op1 op2 result)

/-- DIV (41_arithmetic.md R104, R107 to R109). -/
def execDiv (op1 op2 result : Word) (s : State) : Host.Outcome State Fault Refusal :=
  .next (s.divide tdiv op1 op2 result)

/-- MOD (41_arithmetic.md R105, R107 to R109). -/
def execMod (op1 op2 result : Word) (s : State) : Host.Outcome State Fault Refusal :=
  .next (s.divide trem op1 op2 result)

end Sys2Proof.Machine
end

