-- ==== Sys2Proof/Machine/Halt.lean ====
section
/-! DEFINITION. HALT (43_halt.md). -/

namespace Sys2Proof.Machine

/-- HALT (43_halt.md R130): ends the run with Halted; the operand words are ignored and pc stays. -/
def execHalt (_op1 _op2 _result : Word) (s : State) : Host.Outcome State Fault Refusal :=
  .next (s.endRun .halted)

end Sys2Proof.Machine
end

