-- ==== Sys2Proof/Machine/Lds.lean ====
section
/-! DEFINITION. LDS (42_lds.md). -/

namespace Sys2Proof.Machine

/-- LDS (42_lds.md R120 to R124): RY to the slot op2 names, the literal op1 into the slot result names. -/
def execLds (op1 op2 result : Word) (s : State) : Host.Outcome State Fault Refusal :=
  .next ((s.redirectRy (idx op2)).setSlot (idx result) (literal op1)).complete

end Sys2Proof.Machine
end

