-- ==== Sys2Proof/Machine/Dispatch.lean ====
section
/-! DEFINITION. Dispatch on the operation that runs: one arm per instruction, no default (40 R90, 30 R67). -/

namespace Sys2Proof.Machine

def exec (i : Instr) (s : State) : Host.Outcome State Fault Refusal :=
  match i with
  | .halt op1 op2 result => Sys2Proof.Machine.execHalt op1 op2 result s
  | .add op1 op2 result => Sys2Proof.Machine.execAdd op1 op2 result s
  | .sub op1 op2 result => Sys2Proof.Machine.execSub op1 op2 result s
  | .mul op1 op2 result => Sys2Proof.Machine.execMul op1 op2 result s
  | .div op1 op2 result => Sys2Proof.Machine.execDiv op1 op2 result s
  | .mod op1 op2 result => Sys2Proof.Machine.execMod op1 op2 result s
  | .lds op1 op2 result => Sys2Proof.Machine.execLds op1 op2 result s

end Sys2Proof.Machine
end

