-- ==== Sys2Proof/Machine/Fetch.lean ====
section
/-! DEFINITION. What a step does before it dispatches (40_fetch_decode_dispatch.md R80 to R89): the checks on the start
state, the loop test, the fetch, the scrambler, and the pre-execution trace record. -/

namespace Sys2Proof.Machine

/-- Fetch of the four words at pc (40 R82). -/
def State.fetch (s : State) : Option Encoded :=
  match s.memRead s.pc.toNat Config.stride with
  | some [word0, op1, op2, result] => some ⟨word0, op1, op2, result⟩
  | _ => none

/-- The pre-execution record of four fetched words (60_exceptions.md R153, R154, R156), with the effective opcode that
dispatch uses (40 R89). -/
def State.preRecord (s : State) (e : Encoded) : TraceRecord :=
  let base := baseOf e.word0
  let eff := effOf base s.product
  .pre s.pc base eff (base != eff) (s.operandValues (e.instr s.product)) s.snapshot

/-- What a step is about to do. -/
inductive StepPlan where
  /-- Nothing: the start state or the program has no meaning. -/
  | refuse (r : Refusal)
  /-- Nothing: the machine has no step. -/
  | stop (f : Fault)
  /-- The program is exhausted: end the run with Ok. -/
  | exhausted
  /-- Put out the record and execute the instruction. -/
  | execute (record : TraceRecord) (i : Instr)
  deriving DecidableEq, Repr

/-- Why a step or a run from this state has no meaning, whatever STATE holds: a malformed program (20_memory.md R41) or a
state that is not valid (10_state.md R31, 60_exceptions.md R158; log entries 5, 23). -/
def State.startRefusal (s : State) : Option Refusal :=
  if ¬ ProgLenOk s.progLen then some .malformedProgram
  else if ¬ s.Valid then some .invalidState
  else none

/-- The plan of a step (40 R80 to R87). The program's length and the state are checked first (10_state.md R31, 20 R41),
then STATE (10_state.md R28), then the loop test (40 R81). -/
def State.plan (s : State) : StepPlan :=
  match s.startRefusal with
  | some r => .refuse r
  | none =>
    match s.state.status with
    | some st => .stop (.stopped st)
    | none =>
      if (s.progLen : Int) ≤ sint s.pc then .exhausted
      else match s.fetch with
        | none => .stop .absentWord
        | some e => .execute (s.preRecord e) (e.instr s.product)

end Sys2Proof.Machine
end

