-- ==== Sys2Proof/Machine/Step.lean ====
section
/-! DEFINITION. One step of the machine (40_fetch_decode_dispatch.md R80). -/

namespace Sys2Proof.Machine

/-- One step (40 R80): refused or stopped, or the transition to Ok, or one instruction after its trace record. -/
def step (s : State) : Host.Outcome State Fault Refusal :=
  match s.plan with
  | .refuse r => .refused r
  | .stop f => .fault f
  | .exhausted => .next (s.endRun .ok)
  | .execute record i => exec i (s.emit record)

/-- The state with an instruction's table bits stored where the next step fetches: at pc (log entry 20). -/
def State.withFetchWord (s : State) (nbits w : Nat) : State := s.placeAtPc (tableWords nbits w)

end Sys2Proof.Machine
end

