-- ==== Sys2Proof/Machine/Run.lean ====
section
/-! DEFINITION. A run (40_fetch_decode_dispatch.md R96): steps repeated until STATE leaves Running. A malformed program or
an invalid state is given no run (10_state.md R31, 60_exceptions.md R158). What a run answers from a valid state that has
already stopped is the model's choice: log entry 24. -/

namespace Sys2Proof.Machine

/-- At most n steps, ending as soon as STATE is not Running (40 R96). -/
def stepWhileRunning : Nat → State → Host.Outcome State Fault Refusal
  | 0, s => .next s
  | n + 1, s =>
    if s.state = .running then
      match step s with
      | .next t => stepWhileRunning n t
      | .fault f => .fault f
      | .refused r => .refused r
    else .next s

/-- A run of at most n steps (40 R96). A malformed program or an invalid start state is refused, whatever STATE holds
(10_state.md R31, 60_exceptions.md R158). DESIGN CHOICE (log entry 24): a valid start state whose STATE is already terminal
is answered unchanged after no step, although the spec starts runs in Running states only (92_eei_decisions.md D19) and its
source is silent on a machine already stopped (91_not_in_source.md N19). -/
def runSteps (n : Nat) (s : State) : Host.Outcome State Fault Refusal :=
  match s.startRefusal with
  | some r => .refused r
  | none => stepWhileRunning n s

/-- The run of the machine on the program it holds, with as many steps as any run can take (40 R93, R96). From a valid
start state already stopped it answers that state unchanged: DESIGN CHOICE, log entry 24. -/
def execute (s : State) : Host.Outcome State Fault Refusal :=
  runSteps ((s.progLen - s.pc.toNat) / 4 + 1) s

end Sys2Proof.Machine
end

