-- ==== Sys2Proof/Safety.lean ====
section
/-! DEFINITION. The terms statements are made in: what an instruction keeps, when it completes, and the invariants of
the machine. -/

namespace Sys2Proof.Machine

/-- The instruction completes (40 R91): all but HALT, and DIV and MOD by a zero register. -/
def Completes (i : Instr) (s : State) : Prop :=
  match i with
  | .halt _ _ _ => False
  | .add _ _ _ => True
  | .sub _ _ _ => True
  | .mul _ _ _ => True
  | .div _ op2 _ => sint (s.slot (idx op2)) ≠ 0
  | .mod _ op2 _ => sint (s.slot (idx op2)) ≠ 0
  | .lds _ _ _ => True

/-- An operation's encoding (30_encoding.md R60, R63, R71): its number and canonical word 0, and that four words whose
effective opcode is that number are that instruction, whatever the scrambler's product. -/
def EncodedAs (n : OpNum) (canonical : Word) (i : Word → Word → Word → Instr) : Prop :=
  baseOf canonical = n ∧ ∀ p word0 op1 op2 result, effOf (baseOf word0) p = n →
    decode p [word0, op1, op2, result] = .ok (i op1 op2 result, [])

/-- The instruction with another word in each field that denotes a register (30_encoding.md R66). -/
def mapRegisterFields (f : Word → Word) : Instr → Instr
  | .halt op1 op2 result => .halt op1 op2 result
  | .add op1 op2 result => .add (f op1) (f op2) (f result)
  | .sub op1 op2 result => .sub (f op1) (f op2) (f result)
  | .mul op1 op2 result => .mul (f op1) (f op2) (f result)
  | .div op1 op2 result => .div (f op1) (f op2) (f result)
  | .mod op1 op2 result => .mod (f op1) (f op2) (f result)
  | .lds op1 op2 result => .lds op1 (f op2) (f result)

/-- The program is kept: its length, and the word at every address (20_memory.md R43). -/
def ProgramKept (s t : State) : Prop := t.progLen = s.progLen ∧ ∀ a, t.prog.read a = s.prog.read a

/-- What a completing register instruction keeps: every slot but one, both index registers, STATE, the trace and the
program; and pc is advanced by 4. -/
def RegisterFrame (s t : State) (dest : Slot) : Prop :=
  (∀ k, k ≠ dest → t.slot k = s.slot k) ∧ t.rxi = s.rxi ∧ t.ryi = s.ryi ∧ t.pc = s.pc + 4#32 ∧
    t.state = s.state ∧ t.trace = s.trace ∧ ProgramKept s t

/-- What entering a terminal condition does (60_exceptions.md R147, R154): STATE is set, the final record goes out with
the snapshot of the stopped machine, every slot, both index registers, pc and the program stay. -/
def StopsWith (s t : State) (st : Status) : Prop :=
  t.state = st.engineState ∧ t.trace = s.trace ++ [.final st t.snapshot] ∧ (∀ k, t.slot k = s.slot k) ∧
    t.rxi = s.rxi ∧ t.ryi = s.ryi ∧ t.pc = s.pc ∧ ProgramKept s t

/-- The four words at pc are these (20_memory.md R42, 40 R82). -/
def WordsAtPc (s : State) (e : Encoded) : Prop :=
  s.prog.read s.pc.toNat = e.word0 ∧ s.prog.read (s.pc.toNat + 1) = e.op1 ∧
    s.prog.read (s.pc.toNat + 2) = e.op2 ∧ s.prog.read (s.pc.toNat + 3) = e.result

/-- A state a run may start from: well-formed program, valid state, STATE = Running (10_state.md R31, 20 R41). -/
abbrev Startable (s : State) : Prop := ProgLenOk s.progLen ∧ s.Valid ∧ s.state = .running

/-- The machine's invariant: a well-formed program in canonical form, listing nothing at or above L, and a valid state. -/
def MachineInv (s : State) : Prop :=
  ProgLenOk s.progLen ∧ s.Valid ∧ s.prog.wf = true ∧ ∀ c ∈ s.prog, c.1 < s.progLen

/-- The record is a pre-execution record (60_exceptions.md R153). -/
def TraceRecord.isPre : TraceRecord → Bool
  | .pre _ _ _ _ _ _ => true
  | .final _ _ => false

/-- The trace of a machine (60_exceptions.md R154): while it runs, pre-execution records only; once it has stopped,
exactly one final record, the last, with its status and the snapshot of the machine as it stands. -/
def TraceInv (s : State) : Prop :=
  match s.state.status with
  | none => ∀ r ∈ s.trace, r.isPre = true
  | some st => ∃ rs, s.trace = rs ++ [.final st s.snapshot] ∧ ∀ r ∈ rs, r.isPre = true

/-- The two states agree in everything but the trace. -/
def AgreeButTrace (s t : State) : Prop := { s with trace := [] } = { t with trace := [] }

end Sys2Proof.Machine
end

