-- ==== Sys2Proof/Certificates/Slice0/Obligations.lean ====
section
/-! DEFINITION. The statements for the provers, from the numbered rules of spec/. Where a statement's docstring names a
decision Dn or a log entry, that clause is the spec's own decision or the model's choice, as it says. -/

open Sys2Proof Sys2Proof.Machine

/-! ### The instructions: result, completion and frame -/

/-- 41_arithmetic.md R101. Operation number: decision D1 (log entry 7); overflow wraps: decision D4 (log entry 10). -/
def Obligations.AddWritesWrappedSum : Prop :=
  EncodedAs 1 1 .add ∧
    ∀ (s : State) (op1 op2 result : Word), ∃ t, exec (.add op1 op2 result) s = .next t ∧
      (sint (t.slot (idx result)) - (sint (s.slot (idx op1)) + sint (s.slot (idx op2)))) % 2 ^ 32 = 0 ∧
      RegisterFrame s t (idx result)

/-- 41_arithmetic.md R102. Operation number: decision D1 (log entry 7); overflow wraps: decision D4 (log entry 10). -/
def Obligations.SubWritesWrappedDifference : Prop :=
  EncodedAs 2 2 .sub ∧
    ∀ (s : State) (op1 op2 result : Word), ∃ t, exec (.sub op1 op2 result) s = .next t ∧
      (sint (t.slot (idx result)) - (sint (s.slot (idx op1)) - sint (s.slot (idx op2)))) % 2 ^ 32 = 0 ∧
      RegisterFrame s t (idx result)

/-- 41_arithmetic.md R103. Operation number: decision D1 (log entry 7); overflow wraps: decision D4 (log entry 10). -/
def Obligations.MulWritesWrappedProduct : Prop :=
  EncodedAs 3 3 .mul ∧
    ∀ (s : State) (op1 op2 result : Word), ∃ t, exec (.mul op1 op2 result) s = .next t ∧
      (sint (t.slot (idx result)) - sint (s.slot (idx op1)) * sint (s.slot (idx op2))) % 2 ^ 32 = 0 ∧
      RegisterFrame s t (idx result)

/-- 41_arithmetic.md R104: the quotient rounded toward zero is the q with a = b * q + r, |r| < |b|, and r zero or of
a's sign (R7). A zero divisor raises DivisionByZero. Operation number: decision D1 (log entry 7). -/
def Obligations.DivWritesTruncatedQuotient : Prop :=
  EncodedAs 4 4 .div ∧
    ∀ (s : State) (op1 op2 result : Word),
      (sint (s.slot (idx op2)) ≠ 0 → ∃ t, exec (.div op1 op2 result) s = .next t ∧
        (∃ q r : Int, sint (s.slot (idx op1)) = sint (s.slot (idx op2)) * q + r ∧
          |r| < |sint (s.slot (idx op2))| ∧ (r = 0 ∨ (r < 0 ↔ sint (s.slot (idx op1)) < 0)) ∧
          (sint (t.slot (idx result)) - q) % 2 ^ 32 = 0) ∧
        RegisterFrame s t (idx result)) ∧
      (sint (s.slot (idx op2)) = 0 → ∃ t, exec (.div op1 op2 result) s = .next t ∧ StopsWith s t .divisionByZero)

/-- 41_arithmetic.md R105: the remainder r with a = b * q + r, |r| < |b|, zero or of a's sign (R7), unwrapped. A zero
divisor raises DivisionByZero. Operation number: decision D1 (log entry 7). -/
def Obligations.ModWritesTruncatedRemainder : Prop :=
  EncodedAs 5 5 .mod ∧
    ∀ (s : State) (op1 op2 result : Word),
      (sint (s.slot (idx op2)) ≠ 0 → ∃ t, exec (.mod op1 op2 result) s = .next t ∧
        (∃ q : Int, sint (s.slot (idx op1)) = sint (s.slot (idx op2)) * q + sint (t.slot (idx result))) ∧
        |sint (t.slot (idx result))| < |sint (s.slot (idx op2))| ∧
        (sint (t.slot (idx result)) = 0 ∨ (sint (t.slot (idx result)) < 0 ↔ sint (s.slot (idx op1)) < 0)) ∧
        RegisterFrame s t (idx result)) ∧
      (sint (s.slot (idx op2)) = 0 → ∃ t, exec (.mod op1 op2 result) s = .next t ∧ StopsWith s t .divisionByZero)

/-- 42_lds.md R120. Operation number: decision D1 (log entry 7). -/
def Obligations.LdsLoadsLiteralAndRedirectsRy : Prop :=
  EncodedAs 6 6 .lds ∧
    ∀ (s : State) (op1 op2 result : Word), ∃ t, exec (.lds op1 op2 result) s = .next t ∧
      ((t.ryi.val : Int) = sint op2 % 8) ∧ t.slot (idx result) = op1 ∧
      (∀ k, k ≠ idx result → t.slot k = s.slot k) ∧ t.rxi = s.rxi ∧ t.pc = s.pc + 4#32 ∧ t.state = s.state ∧
      t.trace = s.trace ∧ ProgramKept s t

/-- 43_halt.md R130: whatever the operand words. Operation number: decision D1 (log entry 7). -/
def Obligations.HaltStopsTheRun : Prop :=
  EncodedAs 0 0 .halt ∧
    ∀ (s : State) (op1 op2 result : Word), ∃ t, exec (.halt op1 op2 result) s = .next t ∧ StopsWith s t .halted

/-- 41_arithmetic.md R109: DIV and MOD with a zero register raise DivisionByZero whatever the dividend and the operand
words, with nothing written and pc kept. 10_state.md R28, 60_exceptions.md R140, R142: nothing but a DIV or MOD by a zero
register enters DivisionByZero. -/
def Obligations.ZeroDivisorStopsUnwritten : Prop :=
  (∀ (s : State) (op1 op2 result : Word), sint (s.slot (idx op2)) = 0 →
    ∃ t, exec (.div op1 op2 result) s = .next t ∧ exec (.mod op1 op2 result) s = .next t ∧
      StopsWith s t .divisionByZero) ∧
  ∀ (i : Instr) (s t : State), exec i s = .next t → t.state = .divisionByZero → s.state ≠ .divisionByZero →
    ∃ op1 op2 result, (i = .div op1 op2 result ∨ i = .mod op1 op2 result) ∧ sint (s.slot (idx op2)) = 0

/-- 41_arithmetic.md R108, the spec's decision D5 (log entry 11): -2^31 divided by -1. -/
def Obligations.OverflowingQuotientWraps : Prop :=
  ∀ (s : State) (op1 op2 result : Word), s.slot (idx op1) = 0x80000000#32 → s.slot (idx op2) = 0xFFFFFFFF#32 →
    (∃ t, exec (.div op1 op2 result) s = .next t ∧ t.slot (idx result) = 0x80000000#32 ∧
      RegisterFrame s t (idx result)) ∧
    ∃ t, exec (.mod op1 op2 result) s = .next t ∧ t.slot (idx result) = 0#32 ∧ RegisterFrame s t (idx result)

/-- 41_arithmetic.md R106, the spec's decision D4 (log entry 10): the three results are those of unsigned arithmetic
modulo 2^32 too, and no overflow stops the run. -/
def Obligations.SignedAndUnsignedArithmeticAgree : Prop :=
  ∀ (s : State) (op1 op2 result : Word),
    (∃ t, exec (.add op1 op2 result) s = .next t ∧ t.state = s.state ∧
      (t.slot (idx result)).toNat = ((s.slot (idx op1)).toNat + (s.slot (idx op2)).toNat) % 2 ^ 32) ∧
    (∃ t, exec (.sub op1 op2 result) s = .next t ∧ t.state = s.state ∧
      (t.slot (idx result)).toNat = ((s.slot (idx op1)).toNat + (2 ^ 32 - (s.slot (idx op2)).toNat)) % 2 ^ 32) ∧
    ∃ t, exec (.mul op1 op2 result) s = .next t ∧ t.state = s.state ∧
      (t.slot (idx result)).toNat = ((s.slot (idx op1)).toNat * (s.slot (idx op2)).toNat) % 2 ^ 32

/-- 41_arithmetic.md R100, 70_reset_and_hazards.md R175: one slot as both sources and the destination is well defined,
because both reads come before the write. DIV and MOD need a non-zero slot. -/
def Obligations.OneSlotAsAllOperands : Prop :=
  ∀ (s : State) (u v w : Word), idx u = idx w → idx v = idx w →
    (∃ t, exec (.add u v w) s = .next t ∧ (sint (t.slot (idx w)) - 2 * sint (s.slot (idx w))) % 2 ^ 32 = 0) ∧
    (∃ t, exec (.sub u v w) s = .next t ∧ t.slot (idx w) = 0#32) ∧
    (∃ t, exec (.mul u v w) s = .next t ∧ (sint (t.slot (idx w)) - sint (s.slot (idx w)) ^ 2) % 2 ^ 32 = 0) ∧
    (s.slot (idx w) ≠ 0#32 → ∃ t, exec (.div u v w) s = .next t ∧ t.slot (idx w) = 1#32) ∧
    (s.slot (idx w) ≠ 0#32 → ∃ t, exec (.mod u v w) s = .next t ∧ t.slot (idx w) = 0#32)

/-! ### Operand forms, index registers, program, trace: what instructions depend on and keep -/

/-- 10_state.md R22: fields that agree modulo 8 behave identically, and three examples of the rule. -/
def Obligations.RegisterFieldsReduceModuloEight : Prop :=
  (∀ f : Word → Word, (∀ v, (sint (f v) - sint v) % 8 = 0) → ∀ (i : Instr) (s : State),
    exec (mapRegisterFields f i) s = exec i s ∧ s.operandValues (mapRegisterFields f i) = s.operandValues i) ∧
  ∀ s : State, s.source (BitVec.ofInt 32 (-1)) = s.slot 7 ∧ s.source 8#32 = s.slot 0 ∧
    s.source (BitVec.ofInt 32 (-2147483648)) = s.slot 0

/-- 10_state.md R24: RYI is written by LDS only, with idx(op2); RXI by no step; from reset RXI is 0; and an instruction,
once resolved, does not use RXI or RYI as numbers. -/
def Obligations.IndexRegisterWriters : Prop :=
  (∀ (i : Instr) (s t : State), exec i s = .next t →
    t.rxi = s.rxi ∧
    ((∃ op1 op2 result, i = .lds op1 op2 result ∧ t.ryi = idx op2) ∨ (i.operation ≠ .lds ∧ t.ryi = s.ryi)) ∧
    ∀ j k : Slot, ∃ t', exec i { s with rxi := j, ryi := k } = .next t' ∧ t'.x = t.x ∧ t'.pc = t.pc ∧
      t'.state = t.state) ∧
  (∀ s t : State, step s = .next t → t.rxi = s.rxi) ∧ State.reset.rxi = 0

/-- 42_lds.md R125 (derived there from R120): the RX and RY values after LDS, in the rule's four cases. -/
def Obligations.IndexValuesAfterLds : Prop :=
  ∀ (s t : State) (op1 op2 result : Word), exec (.lds op1 op2 result) s = .next t →
    t.rxValue = (if idx result = s.rxi then op1 else s.rxValue) ∧
    t.ryValue = (if idx result = idx op2 then op1 else s.slot (idx op2))

/-- 41_arithmetic.md R110 (derived there from R100): an arithmetic instruction moves neither index register, and its
result is the new RX or RY value where it writes their slot. -/
def Obligations.IndexValuesAfterArithmetic : Prop :=
  ∀ (s t : State) (op1 op2 result : Word) (i : Instr),
    (i = .add op1 op2 result ∨ i = .sub op1 op2 result ∨ i = .mul op1 op2 result ∨ i = .div op1 op2 result ∨
      i = .mod op1 op2 result) → exec i s = .next t →
    t.rxi = s.rxi ∧ t.ryi = s.ryi ∧
    t.rxValue = (if idx result = s.rxi then t.slot (idx result) else s.rxValue) ∧
    t.ryValue = (if idx result = s.ryi then t.slot (idx result) else s.ryValue)

/-- 20_memory.md R43: no instruction loads from the program store or stores to it. -/
def Obligations.InstructionsIgnoreTheStore : Prop :=
  ∀ (i : Instr) (s t : State), exec i s = .next t →
    t.prog = s.prog ∧ t.progLen = s.progLen ∧
    ∀ (m : Memory) (n : Nat),
      exec i { s with prog := m, progLen := n } = .next { t with prog := m, progLen := n }

/-- 60_exceptions.md R155: the trace port is observation only: what stands on it changes no outcome of a step. -/
def Obligations.TracePortOnlyObserves : Prop :=
  (∀ (s : State) (r : TraceRecord), AgreeButTrace (s.emit r) s) ∧
  ∀ (s : State) (l : List TraceRecord),
    (∀ t, step s = .next t → ∃ t', step { s with trace := l } = .next t' ∧ AgreeButTrace t' t) ∧
    (∀ f, step s = .fault f → step { s with trace := l } = .fault f) ∧
    ∀ r, step s = .refused r → step { s with trace := l } = .refused r

/-! ### The opcode scrambler, decoding and encoding -/

/-- 40_fetch_decode_dispatch.md R86: both reductions are Euclidean, so base and eff lie in 0 .. 6 for every input. -/
def Obligations.ScramblerReductionsAreEuclidean : Prop :=
  ∀ word0 rx ry : Word, ∃ base eff : Int,
    0 ≤ base ∧ base ≤ 6 ∧ (sint word0 - base) % 7 = 0 ∧
    0 ≤ eff ∧ eff ≤ 6 ∧ (base + sint (scrambleProduct rx ry) - eff) % 7 = 0 ∧
    ((baseOf word0).val : Int) = base ∧ ((resolve word0 rx ry).val : Int) = eff

/-- 40_fetch_decode_dispatch.md R83 (its one-step form is derived there), R84 (decision D2, log entry 8), R85
(decision D3, log entry 9). -/
def Obligations.ScramblerFormula : Prop :=
  ∀ word0 rx ry : Word, ∃ p : Int,
    -2 ^ 31 ≤ p ∧ p < 2 ^ 31 ∧ (sint rx * sint ry - p) % 2 ^ 32 = 0 ∧
    ((resolve word0 rx ry).val : Int) = (sint word0 % 7 + p) % 7 ∧
    ((resolve word0 rx ry).val : Int) = (sint word0 + p) % 7

/-- 40_fetch_decode_dispatch.md R88: scrambling is a no-op exactly when P is a multiple of 7, so whenever RX or RY holds
0; non-zero values can give it too. -/
def Obligations.ScramblingIsOffExactlyAtMultiplesOfSeven : Prop :=
  (∀ word0 rx ry : Word, resolve word0 rx ry = baseOf word0 ↔ sint (scrambleProduct rx ry) % 7 = 0) ∧
  (∀ word0 rx ry : Word, rx = 0#32 ∨ ry = 0#32 → resolve word0 rx ry = baseOf word0) ∧
  (∀ word0 : Word, resolve word0 7#32 1#32 = baseOf word0 ∧ resolve word0 65536#32 65536#32 = baseOf word0)

/-- 40_fetch_decode_dispatch.md R95 (derived there; numbers by decision D1, log entry 7): an instruction resolves to HALT
exactly when word 0 plus P is a multiple of 7, and under every product each operation is reached from exactly one base
opcode. -/
def Obligations.WhichBaseOpcodesResolve : Prop :=
  (∀ (e : Encoded) (p : Word), (e.instr p).operation = .halt ↔ (sint e.word0 + sint p) % 7 = 0) ∧
  ∀ (p : Word) (o : Operation), ∃ b : OpNum, Operation.ofNumber (effOf b p) = o ∧
    ∀ b', Operation.ofNumber (effOf b' p) = o → b' = b

/-- 40_fetch_decode_dispatch.md R83, R95 (derived there), and R142's remark that any base opcode becomes DIV or MOD under
the right scramble offset: any word 0 runs as any operation for some RX and RY values. It says nothing of what the
operation then finds in its registers. -/
def Obligations.AnyWordRunsAsAnyOperation : Prop :=
  ∀ (word0 op1 op2 result : Word) (o : Operation), ∃ rx ry : Word,
    (Encoded.instr ⟨word0, op1, op2, result⟩ (scrambleProduct rx ry)) = o.instr op1 op2 result

/-- 30_encoding.md R67: every four words are a legal instruction, under every product. -/
def Obligations.EveryFourWordsAreAnInstruction : Prop :=
  ∀ (p word0 op1 op2 result : Word) (rest : List Word), ∃ (i : Instr) (n : OpNum),
    decode p (word0 :: op1 :: op2 :: result :: rest) = .ok (i, rest) ∧ i.wellFormed = true ∧
    n = effOf (baseOf word0) p ∧ i.operation.number = n ∧ i = i.operation.instr op1 op2 result

/-- Decode and encode agree, for every instruction, every operand word and every product (30_encoding.md R60, R61, R71;
40 R95). The encoder's choice of word 0 is the model's (log entry 18). -/
def Obligations.DecodeOfEncodeIsTheInstruction : Prop :=
  ∀ (p : Word) (i : Instr) (rest : List Word), decode p (encode p i ++ rest) = .ok (i, rest)

/-- Encoding a decoded instruction gives its operand words back, and a canonical word 0 of the same base opcode
(30_encoding.md R62, R71; log entry 18). -/
def Obligations.EncodeOfDecodeIsCanonical : Prop :=
  ∀ (p : Word) (e : Encoded), ∃ word0 : Word,
    encode p (e.instr p) = [word0, e.op1, e.op2, e.result] ∧ 0 ≤ sint word0 ∧ sint word0 ≤ 6 ∧
    baseOf word0 = baseOf e.word0

/-- Words written out from 95_test_vectors.md (P1, P3, P4, V-S8) and their instructions (numbers by decision D1). -/
def Obligations.ExampleWordsDecode : Prop :=
  decode 0 [6#32, 0x4a#32, 1#32, 1#32] = .ok (.lds 0x4a 1 1, []) ∧
  decode 0 [13#32, 2#32, 1#32, 8#32] = .ok (.lds 2 1 8, []) ∧
  decode 3034 [1#32, 2#32, 1#32, 1#32] = .ok (.div 2 1 1, []) ∧
  decode 2624 [6#32, 0#32, 0#32, 0#32] = .ok (.mod 0 0 0, []) ∧
  decode 0 [0#32, 0#32, 0#32, 0#32] = .ok (.halt 0 0 0, []) ∧
  decode 0 [0xFFFFFFFF#32, 3#32, 0xFFFFFFF9#32, 0xFFFFFFF1#32] = .ok (.lds 3 0xFFFFFFF9 0xFFFFFFF1, []) ∧
  decode 10 [5#32, 0#32, 2#32, 0#32] = .ok (.add 0 2 0, [])

/-! ### The step -/

/-- Dispatch runs the decoded instruction: in a state a run may start from, below L, a step is exec of the instruction
the four words at pc decode to, with the current RX and RY values, on the state with its pre-execution record put out
(40 R80, R82, R83, R87, R89, R90; 60_exceptions.md R153, R154, with the record's layout by decision D13, log entry 15). -/
def Obligations.StepRunsTheDecodedInstruction : Prop :=
  ∀ (s : State) (e : Encoded), Startable s → sint s.pc < (s.progLen : Int) → WordsAtPc s e →
    ∃ i, decode (scrambleProduct s.rxValue s.ryValue) [e.word0, e.op1, e.op2, e.result] = .ok (i, []) ∧
      step s = exec i (s.emit (.pre s.pc (baseOf e.word0) (resolve e.word0 s.rxValue s.ryValue)
        (decide (baseOf e.word0 ≠ resolve e.word0 s.rxValue s.ryValue)) (s.operandValues i) s.snapshot))

/-- 60_exceptions.md R156 (the spec's decision D13, log entry 15): the operand values a pre-execution record carries. -/
def Obligations.RecordedOperandValues : Prop :=
  ∀ (s : State) (op1 op2 result : Word),
    (∀ o, o = Operation.add ∨ o = Operation.sub ∨ o = Operation.mul ∨ o = Operation.div ∨ o = Operation.mod →
      s.operandValues (o.instr op1 op2 result) =
        .registers (s.slot (idx op1)) (s.slot (idx op2)) (idx result)) ∧
    s.operandValues (.lds op1 op2 result) = .literal op1 (idx op2) (idx result) ∧
    s.operandValues (.halt op1 op2 result) = .none

/-- 40_fetch_decode_dispatch.md R81: at the end of the program the step enters Ok and changes nothing else. -/
def Obligations.ExhaustedProgramEndsOk : Prop :=
  ∀ s : State, Startable s → (s.progLen : Int) ≤ sint s.pc → ∃ t, step s = .next t ∧ StopsWith s t .ok

/-- 60_exceptions.md R140: which of the three terminal conditions a step ends in, and when it ends in none. -/
def Obligations.TerminalConditionOfAStep : Prop :=
  ∀ (s t : State) (e : Encoded), WordsAtPc s e → step s = .next t →
    s.state = .running ∧
    (t.state = .ok ↔ (s.progLen : Int) ≤ sint s.pc) ∧
    (t.state = .halted ↔ sint s.pc < (s.progLen : Int) ∧ (e.instr s.product).operation = .halt) ∧
    (t.state = .divisionByZero ↔ sint s.pc < (s.progLen : Int) ∧
      ((e.instr s.product).operation = .div ∨ (e.instr s.product).operation = .mod) ∧
      sint (s.slot (idx e.op2)) = 0) ∧
    (t.state = .running ↔ sint s.pc < (s.progLen : Int) ∧ Completes (e.instr s.product) s)

/-- 40_fetch_decode_dispatch.md R91: an instruction advances pc by 4 and stays Running exactly when its operation is
ADD, SUB, MUL or LDS, or DIV or MOD with a non-zero divisor. -/
def Obligations.CompletionAdvancesPcByFour : Prop :=
  ∀ (i : Instr) (s : State), s.state = .running →
    (Completes i s ↔ ∃ t, exec i s = .next t ∧ t.pc = s.pc + 4#32 ∧ t.state = .running)

/-- 40_fetch_decode_dispatch.md R92 (that pc stays is the spec's decision D6, log entry 12): an instruction that does not
complete stops the run with nothing written. -/
def Obligations.NonCompletionStopsInPlace : Prop :=
  ∀ (i : Instr) (s : State), ¬ Completes i s → ∃ t st, exec i s = .next t ∧ StopsWith s t st ∧
    (st = .halted ↔ i.operation = .halt) ∧
    (st = .divisionByZero ↔ i.operation = .div ∨ i.operation = .mod) ∧ st ≠ .ok

/-- 10_state.md R26: pc stays non-negative and a multiple of 4, grows by exactly 4 while the machine runs on, and stays
where the run ends. -/
def Obligations.PcGrowsByTheStride : Prop :=
  ∀ s t : State, step s = .next t →
    0 ≤ sint t.pc ∧ sint t.pc % 4 = 0 ∧ (t.state = .running → sint t.pc = sint s.pc + 4) ∧
    (t.state ≠ .running → t.pc = s.pc)

/-- 70_reset_and_hazards.md R176: a step that stops the run leaves every register, both index registers, pc and the
program as the last completed instruction left them. -/
def Obligations.StoppingStepWritesNothing : Prop :=
  ∀ s t : State, step s = .next t → t.state ≠ .running →
    (∀ k, t.slot k = s.slot k) ∧ t.rxi = s.rxi ∧ t.ryi = s.ryi ∧ t.pc = s.pc ∧ ProgramKept s t

/-- 10_state.md R28 (a stopped machine has no step; that step answers the fault `stopped` is log entry 4). -/
def Obligations.TerminalStatesHaveNoStep : Prop :=
  ∀ (s : State) (st : Status), ProgLenOk s.progLen → s.Valid → s.state = st.engineState →
    step s = .fault (.stopped st)

/-- 10_state.md R31 and 20_memory.md R41, by the spec's decisions D8 and D9 (log entries 5, 14): a malformed program or
an invalid state is refused, whatever STATE holds. -/
def Obligations.MalformedStartsAreRefused : Prop :=
  ∀ s : State,
    ((s.progLen % 4 ≠ 0 ∨ 2147483644 < s.progLen) → step s = .refused .malformedProgram) ∧
    (s.progLen % 4 = 0 → s.progLen ≤ 2147483644 →
      (sint s.pc < 0 ∨ sint s.pc % 4 ≠ 0 ∨ (s.progLen : Int) < sint s.pc) → step s = .refused .invalidState)

/-- 10_state.md R31, 60_exceptions.md R158, by the spec's decisions D8 and D9 (log entries 5, 14, 23): a run on a malformed
program or from an invalid state is refused, whatever STATE holds and however many steps are asked for. -/
def Obligations.RunsFromMalformedStartsAreRefused : Prop :=
  ∀ (s : State) (n : Nat),
    ((s.progLen % 4 ≠ 0 ∨ 2147483644 < s.progLen) →
      runSteps n s = .refused .malformedProgram ∧ execute s = .refused .malformedProgram) ∧
    (s.progLen % 4 = 0 → s.progLen ≤ 2147483644 →
      (sint s.pc < 0 ∨ sint s.pc % 4 ≠ 0 ∨ (s.progLen : Int) < sint s.pc) →
      runSteps n s = .refused .invalidState ∧ execute s = .refused .invalidState)

/-- 40_fetch_decode_dispatch.md R80, 60_exceptions.md R143: every state a run may start from has a step; there is no
fault and no refusal there. -/
def Obligations.EveryStartableStateSteps : Prop :=
  ∀ s : State, Startable s → ∃ t, step s = .next t

/-! ### Reset, the host, and the program store -/

/-- 10_state.md R30: the reset values, of the reset state and after the reset input from any state. -/
def Obligations.ResetValues : Prop :=
  ∀ s t : State, t = State.reset ∨ t = s.applyReset →
    (∀ k, t.slot k = 0#32) ∧ t.rxi = 0 ∧ t.ryi = 0 ∧ t.pc = 0#32 ∧ t.state = .running

/-- 70_reset_and_hazards.md R171 (decision D12) and 10_state.md R31: reset keeps the program, and a run may start from it
whenever the program is well formed. That the trace begins anew is log entry 3, and is not stated. -/
def Obligations.ResetKeepsTheProgramAndIsStartable : Prop :=
  ∀ s : State, ProgramKept s s.applyReset ∧ (ProgLenOk s.progLen → Startable s.applyReset)

/-- 70_reset_and_hazards.md R172 (derived there): after reset the first instruction of a loaded program executes as
encoded. -/
def Obligations.FirstInstructionAfterResetRunsAsEncoded : Prop :=
  ∀ (s : State) (word0 op1 op2 result : Word) (rest : List Word),
    ProgLenOk (word0 :: op1 :: op2 :: result :: rest).length →
    ∃ record, record.isPre = true ∧
      step (s.loadProgram (word0 :: op1 :: op2 :: result :: rest)).applyReset =
        exec ((Operation.ofNumber (baseOf word0)).instr op1 op2 result)
          ((s.loadProgram (word0 :: op1 :: op2 :: result :: rest)).applyReset.emit record)

/-- 20_memory.md R40, R42: a loaded program reads back word for word, MemRead answers exactly inside its domain, and the
store is in canonical form (the form is log entry 2). -/
def Obligations.LoadedProgramReadsBack : Prop :=
  ∀ (s : State) (ws : List Word),
    (s.loadProgram ws).prog.wf = true ∧
    (∀ k w, ws[k]? = some w → (s.loadProgram ws).prog.read k = w) ∧
    ∀ a n, (s.loadProgram ws).memRead a n = if a + n ≤ ws.length then some ((ws.drop a).take n) else none

/-- The model's withFetchWord (log entries 19, 20; the invariant's canonical form is log entry 2): from an invariant state
that may start and has room below PROG_LEN_MAX, the next step runs the placed words, and the invariant holds. -/
def Obligations.PlacedWordsRunNext : Prop :=
  ∀ (s : State) (nbits w : Nat), MachineInv s → s.state = .running → s.pc.toNat + 4 ≤ 2147483644 →
    MachineInv (s.withFetchWord nbits w) ∧ ∃ record i rest, record.isPre = true ∧
      decode s.product (tableWords nbits w) = .ok (i, rest) ∧
      step (s.withFetchWord nbits w) = exec i ((s.withFetchWord nbits w).emit record)

/-- 60_exceptions.md R141 (numbers 1 and 2 by decision D7, log entry 13) and the ports done and status_code of
00_scope.md R9. -/
def Obligations.StatusCodes : Prop :=
  ∀ s : State, (s.done = true ↔ s.state ≠ .running) ∧
    (s.state = .running → s.statusCode = none) ∧ (s.state = .ok → s.statusCode = some 0) ∧
    (s.state = .halted → s.statusCode = some 1) ∧ (s.state = .divisionByZero → s.statusCode = some 2)

/-! ### Invariants of every step, and the run -/

/-- 10_state.md R31 (derived there): every step keeps a valid state and a well-formed program length. That the store stays
in canonical form and lists nothing at or above L is about the model's own form of the store: log entry 2. -/
def Obligations.StepKeepsValidity : Prop :=
  ∀ s t : State, MachineInv s → step s = .next t → MachineInv t

/-- The invariant at reset (10_state.md R31; L = 0 and the empty store at reset are log entry 2). -/
def Obligations.ResetStateIsValid : Prop := MachineInv State.reset

/-- 60_exceptions.md R154: every step keeps the trace's form: pre-execution records only while the machine runs, and one
final record, the last, with the right status and snapshot once it has stopped. That the trace is held in State is log
entry 3. -/
def Obligations.StepKeepsTraceForm : Prop :=
  ∀ s t : State, TraceInv s → step s = .next t → TraceInv t

/-- The trace's form at reset (log entry 3), of the reset state and after the reset input. -/
def Obligations.ResetTraceForm : Prop :=
  TraceInv State.reset ∧ ∀ s : State, TraceInv s.applyReset

/-- 40_fetch_decode_dispatch.md R93 (derived there), 90_conflicts.md C8: from every state a run may start from, the run
ends within (L - pc)/4 + 1 steps, in a terminal state. -/
def Obligations.EveryRunEnds : Prop :=
  ∀ s : State, Startable s → ∃ t,
    runSteps ((s.progLen - s.pc.toNat) / 4 + 1) s = .next t ∧ t.state ≠ .running ∧ s.pc.toNat ≤ t.pc.toNat ∧
    t.rxi = s.rxi ∧ ProgramKept s t

/-- 60_exceptions.md R154, R151 (the count by pc is derived there): a run of n instructions puts out n pre-execution
records and then exactly one final record; n is the number of completed instructions, (pc - pc_start)/4, and one more
unless the run ends with Ok. That the records stand in State, after those put out before the run, is log entry 3. -/
def Obligations.TraceOfARun : Prop :=
  ∀ s : State, Startable s → ∃ (t : State) (st : Status) (records : List TraceRecord),
    execute s = .next t ∧ t.state = st.engineState ∧
    t.trace = s.trace ++ records ++ [.final st t.snapshot] ∧ (∀ r ∈ records, r.isPre = true) ∧
    records.length = (t.pc.toNat - s.pc.toNat) / 4 + (if st = .ok then 0 else 1)

/-- 40_fetch_decode_dispatch.md R96, 10_state.md R31: a run may start from any valid state, so the run from a state is
the run from the state one step later. -/
def Obligations.RunsCompose : Prop :=
  ∀ s t : State, step s = .next t → t.state = .running → execute s = execute t
end

