-- ==== Sys2Proof/Laws/Memory.lean ====
section
/-! SUPPORT. The program store: reading back what was written, and the canonical form kept by every operation. -/

namespace Sys2Proof.Machine

theorem Memory.wfFrom_mono {lo lo' : Nat} {m : Memory} (h : lo' ≤ lo) (hm : Memory.wfFrom lo m = true) :
    Memory.wfFrom lo' m = true := by
  cases m with
  | nil => rfl
  | cons c m =>
    simp only [Memory.wfFrom, Bool.and_eq_true, decide_eq_true_eq] at hm ⊢
    exact ⟨⟨by omega, hm.1.2⟩, hm.2⟩

/-- Below the least address of a canonical store every word is 0. -/
theorem Memory.read_below {m : Memory} {lo a : Nat} (hm : Memory.wfFrom lo m = true) (h : a < lo) :
    Memory.read m a = 0#32 := by
  induction m generalizing lo with
  | nil => rfl
  | cons c m ih =>
    simp only [Memory.wfFrom, Bool.and_eq_true, decide_eq_true_eq] at hm
    simp only [Memory.read]
    rw [if_neg (by omega)]
    exact ih hm.2 (by omega)

/-- One write to a canonical store: what every address reads after it. -/
theorem Memory.read_write {m : Memory} {lo a : Nat} (v : Word) (b : Nat) (hm : Memory.wfFrom lo m = true) :
    Memory.read (Memory.write m a v) b = if b = a then v else Memory.read m b := by
  induction m generalizing lo with
  | nil =>
    by_cases hv : v = 0#32 <;> by_cases hb : b = a <;> simp [Memory.write, Memory.read, hv, hb, eq_comm]
    exact fun h => absurd h.symm hb
  | cons c m ih =>
    obtain ⟨k, w⟩ := c
    simp only [Memory.wfFrom, Bool.and_eq_true, decide_eq_true_eq] at hm
    have hbelow : ∀ d, d ≤ k → Memory.read m d = 0#32 := fun d hd => Memory.read_below hm.2 (by omega)
    simp only [Memory.write]
    by_cases h1 : k < a
    · rw [if_pos h1]; simp only [Memory.read, ih hm.2]
      by_cases hk : k = b
      · rw [if_pos hk, if_pos hk, if_neg (by omega)]
      · rw [if_neg hk, if_neg hk]
    · rw [if_neg h1]
      by_cases h2 : k = a
      · rw [if_pos h2]
        by_cases hv : v = 0#32
        · rw [if_pos hv]; simp only [Memory.read]
          by_cases hb : b = a
          · rw [if_pos hb, hv, hbelow b (by omega)]
          · rw [if_neg hb, if_neg (by omega)]
        · rw [if_neg hv]; simp only [Memory.read]
          by_cases hb : b = a
          · rw [if_pos hb, if_pos hb.symm]
          · rw [if_neg hb, if_neg (by omega), if_neg (by omega)]
      · rw [if_neg h2]
        by_cases hv : v = 0#32
        · rw [if_pos hv]
          by_cases hb : b = a
          · rw [if_pos hb, hv]; simp only [Memory.read]; rw [if_neg (by omega), hbelow b (by omega)]
          · rw [if_neg hb]
        · rw [if_neg hv]
          by_cases hb : b = a
          · rw [if_pos hb]; simp only [Memory.read]; rw [if_pos hb.symm]
          · rw [if_neg hb]; simp only [Memory.read]; rw [if_neg (by omega)]

/-- A write keeps the canonical form. -/
theorem Memory.wfFrom_write {m : Memory} {lo a : Nat} (v : Word) (ha : lo ≤ a) (hm : Memory.wfFrom lo m = true) :
    Memory.wfFrom lo (Memory.write m a v) = true := by
  induction m generalizing lo with
  | nil => by_cases hv : v = 0#32 <;> simp [Memory.write, Memory.wfFrom, hv, ha]
  | cons c m ih =>
    obtain ⟨k, w⟩ := c
    have hm' := hm
    simp only [Memory.wfFrom, Bool.and_eq_true, decide_eq_true_eq] at hm'
    obtain ⟨⟨h1, h2⟩, h3⟩ := hm'
    simp only [Memory.write]
    split
    · next h => simp only [Memory.wfFrom, Bool.and_eq_true, decide_eq_true_eq]; exact ⟨⟨h1, h2⟩, ih (by omega) h3⟩
    · split
      · next h =>
        subst h
        split
        · exact Memory.wfFrom_mono (by omega) h3
        · next hv => simp only [Memory.wfFrom, Bool.and_eq_true, decide_eq_true_eq]; exact ⟨⟨h1, hv⟩, h3⟩
      · split
        · exact hm
        · next hv =>
          simp only [Memory.wfFrom, Bool.and_eq_true, decide_eq_true_eq]
          exact ⟨⟨ha, hv⟩, ⟨⟨by omega, h2⟩, h3⟩⟩

theorem Memory.wf_write {m : Memory} (a : Nat) (v : Word) (hm : m.wf = true) : (m.write a v).wf = true :=
  Memory.wfFrom_write v (Nat.zero_le a) hm

theorem Memory.wf_writeWords {m : Memory} (a : Nat) (ws : List Word) (hm : m.wf = true) :
    (m.writeWords a ws).wf = true := by
  induction ws generalizing m a with
  | nil => exact hm
  | cons w ws ih => exact ih (a + 1) (Memory.wf_write a w hm)

theorem Memory.wfFrom_ofWords (a : Nat) (ws : List Word) : Memory.wfFrom a (Memory.ofWords a ws) = true := by
  induction ws generalizing a with
  | nil => rfl
  | cons w ws ih =>
    simp only [Memory.ofWords]
    split
    · exact Memory.wfFrom_mono (by omega) (ih (a + 1))
    · next h => simp [Memory.wfFrom, h, ih (a + 1)]

/-- A write lists no address but the old ones and the one written. -/
theorem Memory.mem_write {m : Memory} {a : Nat} {v : Word} {c : Cell} (h : c ∈ m.write a v) :
    c ∈ m ∨ c.1 = a := by
  induction m with
  | nil => simp only [Memory.write] at h; split at h <;> simp_all
  | cons d m ih =>
    obtain ⟨k, w⟩ := d
    simp only [Memory.write] at h
    split at h
    · rcases List.mem_cons.1 h with h | h
      · exact .inl (h ▸ List.mem_cons_self ..)
      · exact (ih h).imp (List.mem_cons_of_mem _) id
    · split at h <;> split at h <;> simp only [List.mem_cons] at h ⊢
      · exact .inl (.inr h)
      · exact h.elim (fun h => .inr (h ▸ rfl)) (fun h => .inl (.inr h))
      · exact .inl h
      · exact h.elim (fun h => .inr (h ▸ rfl)) (fun h => .inl h)

/-- The store right after reset is in canonical form. -/
theorem State.reset_prog_wf : State.reset.prog.wf = true := rfl

end Sys2Proof.Machine
end

