-- ==== Sys2Proof/Laws/State.lean ====
section
/-! SUPPORT. One lemma per field and update, so that no proof unfolds a record update. -/

namespace Sys2Proof.Machine

variable (s : State) (i j : Slot) (w : Word) (r : TraceRecord) (st : Status)

@[simp] theorem State.setSlot_rxi : (s.setSlot i w).rxi = s.rxi := rfl
@[simp] theorem State.setSlot_ryi : (s.setSlot i w).ryi = s.ryi := rfl
@[simp] theorem State.setSlot_pc : (s.setSlot i w).pc = s.pc := rfl
@[simp] theorem State.setSlot_state : (s.setSlot i w).state = s.state := rfl
@[simp] theorem State.setSlot_prog : (s.setSlot i w).prog = s.prog := rfl
@[simp] theorem State.setSlot_progLen : (s.setSlot i w).progLen = s.progLen := rfl
@[simp] theorem State.setSlot_trace : (s.setSlot i w).trace = s.trace := rfl

@[simp] theorem State.redirectRy_x : (s.redirectRy j).x = s.x := rfl
@[simp] theorem State.redirectRy_rxi : (s.redirectRy j).rxi = s.rxi := rfl
@[simp] theorem State.redirectRy_ryi : (s.redirectRy j).ryi = j := rfl
@[simp] theorem State.redirectRy_pc : (s.redirectRy j).pc = s.pc := rfl
@[simp] theorem State.redirectRy_state : (s.redirectRy j).state = s.state := rfl
@[simp] theorem State.redirectRy_prog : (s.redirectRy j).prog = s.prog := rfl
@[simp] theorem State.redirectRy_progLen : (s.redirectRy j).progLen = s.progLen := rfl
@[simp] theorem State.redirectRy_trace : (s.redirectRy j).trace = s.trace := rfl
@[simp] theorem State.redirectRy_slot : (s.redirectRy j).slot i = s.slot i := rfl

@[simp] theorem State.complete_x : s.complete.x = s.x := rfl
@[simp] theorem State.complete_rxi : s.complete.rxi = s.rxi := rfl
@[simp] theorem State.complete_ryi : s.complete.ryi = s.ryi := rfl
@[simp] theorem State.complete_pc : s.complete.pc = s.pc + 4#32 := rfl
@[simp] theorem State.complete_state : s.complete.state = s.state := rfl
@[simp] theorem State.complete_prog : s.complete.prog = s.prog := rfl
@[simp] theorem State.complete_progLen : s.complete.progLen = s.progLen := rfl
@[simp] theorem State.complete_trace : s.complete.trace = s.trace := rfl
@[simp] theorem State.complete_slot : s.complete.slot i = s.slot i := rfl

@[simp] theorem State.emit_x : (s.emit r).x = s.x := rfl
@[simp] theorem State.emit_rxi : (s.emit r).rxi = s.rxi := rfl
@[simp] theorem State.emit_ryi : (s.emit r).ryi = s.ryi := rfl
@[simp] theorem State.emit_pc : (s.emit r).pc = s.pc := rfl
@[simp] theorem State.emit_state : (s.emit r).state = s.state := rfl
@[simp] theorem State.emit_prog : (s.emit r).prog = s.prog := rfl
@[simp] theorem State.emit_progLen : (s.emit r).progLen = s.progLen := rfl
@[simp] theorem State.emit_trace : (s.emit r).trace = s.trace ++ [r] := rfl
@[simp] theorem State.emit_slot : (s.emit r).slot i = s.slot i := rfl
@[simp] theorem State.emit_snapshot : (s.emit r).snapshot = s.snapshot := rfl

@[simp] theorem State.endRun_x : (s.endRun st).x = s.x := rfl
@[simp] theorem State.endRun_rxi : (s.endRun st).rxi = s.rxi := rfl
@[simp] theorem State.endRun_ryi : (s.endRun st).ryi = s.ryi := rfl
@[simp] theorem State.endRun_pc : (s.endRun st).pc = s.pc := rfl
@[simp] theorem State.endRun_state : (s.endRun st).state = st.engineState := rfl
@[simp] theorem State.endRun_prog : (s.endRun st).prog = s.prog := rfl
@[simp] theorem State.endRun_progLen : (s.endRun st).progLen = s.progLen := rfl
@[simp] theorem State.endRun_trace : (s.endRun st).trace = s.trace ++ [.final st s.snapshot] := rfl
@[simp] theorem State.endRun_slot : (s.endRun st).slot i = s.slot i := rfl
@[simp] theorem State.endRun_snapshot : (s.endRun st).snapshot = s.snapshot := rfl

@[simp] theorem State.placeAtPc_pc (ws : List Word) : (s.placeAtPc ws).pc = s.pc := rfl
@[simp] theorem State.placeAtPc_state (ws : List Word) : (s.placeAtPc ws).state = s.state := rfl
@[simp] theorem State.placeAtPc_slot (ws : List Word) : (s.placeAtPc ws).slot i = s.slot i := rfl

@[simp] theorem State.arith_rxi (f : Int → Int → Int) (u v d : Word) : (s.arith f u v d).rxi = s.rxi := rfl
@[simp] theorem State.arith_ryi (f : Int → Int → Int) (u v d : Word) : (s.arith f u v d).ryi = s.ryi := rfl
@[simp] theorem State.arith_pc (f : Int → Int → Int) (u v d : Word) : (s.arith f u v d).pc = s.pc + 4#32 := rfl
@[simp] theorem State.arith_state (f : Int → Int → Int) (u v d : Word) : (s.arith f u v d).state = s.state := rfl
@[simp] theorem State.arith_prog (f : Int → Int → Int) (u v d : Word) : (s.arith f u v d).prog = s.prog := rfl
@[simp] theorem State.arith_progLen (f : Int → Int → Int) (u v d : Word) :
    (s.arith f u v d).progLen = s.progLen := rfl
@[simp] theorem State.arith_trace (f : Int → Int → Int) (u v d : Word) : (s.arith f u v d).trace = s.trace := rfl

/-- Reading a slot after writing one. -/
theorem State.slot_setSlot : (s.setSlot i w).slot j = if j = i then w else s.slot j := by
  simp [State.setSlot, State.slot, Vector.getElem_set, Fin.ext_iff, eq_comm]

@[simp] theorem State.slot_setSlot_same : (s.setSlot i w).slot i = w := by simp [State.slot_setSlot]

theorem State.slot_setSlot_other (h : j ≠ i) : (s.setSlot i w).slot j = s.slot j := by
  simp [State.slot_setSlot, h]

/-- A terminal condition's value of STATE is that condition's. -/
@[simp] theorem Status.status_engineState : st.engineState.status = some st := by cases st <;> rfl

theorem EngineState.status_eq_none {e : EngineState} : e.status = none ↔ e = .running := by
  cases e <;> simp [EngineState.status]

theorem EngineState.status_eq_some {e : EngineState} {st : Status} : e.status = some st ↔ e = st.engineState := by
  cases e <;> cases st <;> simp [EngineState.status, Status.engineState]

end Sys2Proof.Machine
end

