-- ==== Sys2Proof/Laws/Ops.lean ====
section
/-! SUPPORT. One lemma per shared operation: everything it can do. -/

namespace Sys2Proof.Machine

/-- The value of a residue: the Euclidean remainder. -/
theorem residue7_val (z : Int) : ((residue7 z).val : Int) = z % 7 := by
  simp only [residue7, emod]; omega

/-- The slot a register-form word names. -/
theorem idx_val (v : Word) : ((idx v).val : Int) = sint v % 8 := by
  simp only [idx, emod]; omega

/-- What a register receives from an integer, as an integer. -/
theorem sint_wrap32 (z : Int) : sint (wrap32 z) = z.bmod (2 ^ 32) := by
  simp [sint, wrap32, BitVec.toInt_ofInt]

/-- Going through an integer changes no word. -/
theorem wrap32_sint (w : Word) : wrap32 (sint w) = w := BitVec.ofInt_toInt

/-- An arithmetic instruction: one slot written, pc advanced, everything else kept. -/
theorem State.arith_spec (s : State) (f : Int → Int → Int) (op1 op2 result : Word) :
    (s.arith f op1 op2 result).slot (idx result) =
        wrap32 (f (sint (s.slot (idx op1))) (sint (s.slot (idx op2)))) ∧
      RegisterFrame s (s.arith f op1 op2 result) (idx result) := by
  refine ⟨by simp [State.arith, State.source], fun k hk => ?_, rfl, rfl, rfl, rfl, rfl, rfl, fun _ => rfl⟩
  simp [State.arith, State.slot_setSlot_other _ _ _ _ hk]

/-- Entering a terminal condition. -/
theorem State.endRun_spec (s : State) (st : Status) : StopsWith s (s.endRun st) st :=
  ⟨rfl, rfl, fun _ => rfl, rfl, rfl, rfl, rfl, fun _ => rfl⟩

/-- A division by a zero register raises DivisionByZero; any other is an arithmetic instruction. -/
theorem State.divide_zero {s : State} {f : Int → Int → Int} {op1 op2 result : Word}
    (h : sint (s.slot (idx op2)) = 0) : s.divide f op1 op2 result = s.endRun .divisionByZero :=
  if_pos h

theorem State.divide_nonzero {s : State} {f : Int → Int → Int} {op1 op2 result : Word}
    (h : sint (s.slot (idx op2)) ≠ 0) : s.divide f op1 op2 result = s.arith f op1 op2 result :=
  if_neg h

/-- The start check passes exactly for a well-formed program and a valid state. -/
theorem State.startRefusal_eq_none {s : State} : s.startRefusal = none ↔ ProgLenOk s.progLen ∧ s.Valid := by
  unfold State.startRefusal
  by_cases hl : ProgLenOk s.progLen
  · by_cases hv : s.Valid
    · rw [if_neg (not_not.2 hl), if_neg (not_not.2 hv)]; exact ⟨fun _ => ⟨hl, hv⟩, fun _ => rfl⟩
    · rw [if_neg (not_not.2 hl), if_pos hv]; exact ⟨fun h => (nomatch h), fun h => absurd h.2 hv⟩
  · rw [if_pos hl]; exact ⟨fun h => (nomatch h), fun h => absurd h.1 hl⟩

/-- A run from a state that passes the start check is its steps. -/
theorem runSteps_checked {s : State} (h : s.startRefusal = none) (n : Nat) : runSteps n s = stepWhileRunning n s := by
  rw [runSteps, h]

/-- What a step can do: end an exhausted run, or execute the fetched instruction after its record. -/
theorem step_next {s t : State} (h : step s = .next t) :
    Startable s ∧
      (((s.progLen : Int) ≤ sint s.pc ∧ t = s.endRun .ok) ∨
        (sint s.pc < (s.progLen : Int) ∧ ∃ e, s.fetch = some e ∧
          exec (e.instr s.product) (s.emit (s.preRecord e)) = .next t)) := by
  unfold step State.plan at h
  cases hr : s.startRefusal with
  | some r => simp [hr] at h
  | none =>
    obtain ⟨hl, hv⟩ := State.startRefusal_eq_none.1 hr
    cases hs : s.state.status with
    | some st => simp [hr, hs] at h
    | none =>
      refine ⟨⟨hl, hv, EngineState.status_eq_none.1 hs⟩, ?_⟩
      by_cases hp : (s.progLen : Int) ≤ sint s.pc
      · simp only [hr, hs, hp, if_true] at h
        exact .inl ⟨hp, by cases h; rfl⟩
      · simp only [hr, hs, hp, if_false] at h
        cases hf : s.fetch with
        | none => simp [hf] at h
        | some e => exact .inr ⟨by omega, e, rfl, by simpa [hf] using h⟩

end Sys2Proof.Machine
end

