-- ==== Sys2Proof/Laws/PerInstr.lean ====
section
/-! SUPPORT. The families of statements made per instruction. -/

namespace Sys2Proof.Laws.EncodingShape

/-- The instruction is well formed, its operation's number names that operation, and it encodes to four words. -/
def Statement (i : Instr) : Prop :=
  i.wellFormed = true ∧ Operation.ofNumber i.operation.number = i.operation ∧ ∀ p, (encode p i).length = 4

theorem halt (op1 op2 result : Word) : Statement (.halt op1 op2 result) := ⟨rfl, rfl, fun _ => rfl⟩
theorem add (op1 op2 result : Word) : Statement (.add op1 op2 result) := ⟨rfl, rfl, fun _ => rfl⟩
theorem sub (op1 op2 result : Word) : Statement (.sub op1 op2 result) := ⟨rfl, rfl, fun _ => rfl⟩
theorem mul (op1 op2 result : Word) : Statement (.mul op1 op2 result) := ⟨rfl, rfl, fun _ => rfl⟩
theorem div (op1 op2 result : Word) : Statement (.div op1 op2 result) := ⟨rfl, rfl, fun _ => rfl⟩
theorem mod (op1 op2 result : Word) : Statement (.mod op1 op2 result) := ⟨rfl, rfl, fun _ => rfl⟩
theorem lds (op1 op2 result : Word) : Statement (.lds op1 op2 result) := ⟨rfl, rfl, fun _ => rfl⟩

end Sys2Proof.Laws.EncodingShape
end

