-- ==== Sys2Proof/Tests/Slice0.lean ====
section
/-! SUPPORT. Tests of the model. Expected results are those of spec/95_test_vectors.md (named in each comment) or are
worked out by hand from the rules; then one witness for every statement with hypotheses. -/

namespace Sys2Proof.Tests

open Sys2Proof.Machine

/-- The next state of an outcome. -/
def after : Host.Outcome State Fault Refusal → Option State
  | .next s => some s
  | .fault _ => none
  | .refused _ => none

/-- The fault of an outcome. -/
def faultOf : Host.Outcome State Fault Refusal → Option Fault
  | .next _ => none
  | .fault f => some f
  | .refused _ => none

/-- The refusal of an outcome. -/
def refusalOf : Host.Outcome State Fault Refusal → Option Refusal
  | .next _ => none
  | .fault _ => none
  | .refused r => some r

/-- The state after reset with two registers set. -/
def regs (i : Slot) (v : Word) (j : Slot) (w : Word) : State := (State.reset.setSlot i v).setSlot j w

/-- A word from an integer. -/
def wd (z : Int) : Word := wrap32 z

/-- The value of a slot after an outcome, as an integer. -/
def slotAfter (o : Host.Outcome State Fault Refusal) (i : Slot) : Option Int := (after o).map fun t => sint (t.slot i)

/-! ### WellFormed: each check refuses an ill-formed term -/

theorem test_progLen_not_multiple_of_four : ¬ ProgLenOk 3 := by decide
theorem test_progLen_too_long : ¬ ProgLenOk 2147483648 := by decide
theorem test_progLen_bounds : ProgLenOk 0 ∧ ProgLenOk 28 ∧ ProgLenOk 2147483644 := by decide
-- R67: there is no ill-formed instruction to refuse.
theorem test_every_instruction_wellFormed (i : Instr) : i.wellFormed = true := by cases i <;> rfl

/-! ### Decoding: words written out from 30_encoding.md R60, R63, one per constructor -/

theorem test_decode_halt : decode 0 [0, 5, 2, 2] = .ok (.halt 5 2 2, []) := by decide
theorem test_decode_add : decode 0 [1, 9, 0xFFFFFFF9, 17] = .ok (.add 9 0xFFFFFFF9 17, []) := by decide
theorem test_decode_sub : decode 0 [2, 3, 3, 5, 7] = .ok (.sub 3 3 5, [7]) := by decide
theorem test_decode_mul : decode 0 [3, 1, 1, 7] = .ok (.mul 1 1 7, []) := by decide
theorem test_decode_div : decode 0 [4, 1, 5, 1] = .ok (.div 1 5 1, []) := by decide
-- V-S7: -2147483648 has base 5.
theorem test_decode_mod : decode 0 [0x80000000, 1, 2, 3] = .ok (.mod 1 2 3, []) := by decide
theorem test_decode_lds : decode 0 [6, 0x80000000, 8, 9] = .ok (.lds 0x80000000 8 9, []) := by decide
theorem test_decode_truncated : decode 0 [6, 1, 2] = .error .truncated := by decide
-- The table's bits, and the first instruction after reset.
theorem test_tableWord : (List.range 7).map (decodeTableWord 8) =
    [some (.halt 0 0 0), some (.add 0 0 0), some (.sub 0 0 0), some (.mul 0 0 0), some (.div 0 0 0),
      some (.mod 0 0 0), some (.lds 0 0 0)] := by decide
theorem test_tableWord_operands :
    decodeTableWord 128 (6 + 74 * 2 ^ 32 + 1 * 2 ^ 64 + 3 * 2 ^ 96) = some (.lds 74 1 3) := by decide
theorem test_fetchWord_runs : (after (step (State.reset.withFetchWord 8 3))).map State.pc = some 4#32 := by decide
-- V-X4: DIV(0,0,0) from reset.
theorem test_fetchWord_div : (after (step (State.reset.withFetchWord 8 4))).map State.state =
    some .divisionByZero := by decide

/-! ### The scrambler: V-S9, V-S10, V-S13, V-S15, V-S16, V-S17 -/

theorem test_scrambler_wraps : resolve 3 65536 65536 = 3 ∧ resolve 3 65536 32768 = 1 := by decide
theorem test_scrambler_negative : resolve 6 2147483647 2 = 4 ∧ resolve 2 3 (wd (-5)) = 1 := by decide
theorem test_scrambler_exact_sum : resolve 6 2147483647 1 = 0 := by decide
theorem test_scrambler_negative_word0 : resolve (wd (-3)) 3 3 = 6 := by decide

/-! ### Register indices: V-I6, V-I7, V-I8, V-I12 -/

theorem test_idx : idx 74 = 2 ∧ idx (wd (-1)) = 7 ∧ idx (wd (-7)) = 1 ∧ idx 0x80000000 = 0 := by decide

/-! ### The instructions -/

-- V-A2 and V-A17.
theorem test_add_wraps : slotAfter (exec (.add 1 2 3) (regs 1 2147483647 2 1)) 3 = some (-2147483648) := by decide
theorem test_add_reduced_fields : slotAfter (exec (.add 9 (wd (-7)) 17) (regs 1 6 0 0)) 1 = some 12 := by decide
-- R102's example, and V-A13.
theorem test_sub_example : slotAfter (exec (.sub 2 0 0) (regs 2 6 0 7)) 0 = some (-1) := by decide
theorem test_sub_wraps : slotAfter (exec (.sub 1 2 3) (regs 1 0x80000000 2 1)) 3 = some 2147483647 := by decide
-- V-A8 and V-A10.
theorem test_mul_wraps : slotAfter (exec (.mul 1 1 7) (regs 1 46341 0 0)) 7 = some (-2147479015) := by decide
theorem test_mul_low_half :
    slotAfter (exec (.mul 1 2 3) (regs 1 123456789 2 987654321)) 3 = some (-67153019) := by decide
-- V-D2 and V-D9.
theorem test_div_truncates : slotAfter (exec (.div 1 2 3) (regs 1 (wd (-7)) 2 2)) 3 = some (-3) := by decide
theorem test_div_overflow :
    slotAfter (exec (.div 1 2 3) (regs 1 0x80000000 2 (wd (-1)))) 3 = some (-2147483648) := by decide
-- V-D7, and V-D16's first line (all operands one slot).
theorem test_mod_sign : slotAfter (exec (.mod 1 2 3) (regs 1 (wd (-5)) 2 7)) 3 = some (-5) := by decide
theorem test_mod_one_slot : slotAfter (exec (.mod 0 0 0) (regs 0 41 1 64)) 0 = some 0 := by decide
-- V-L2 and V-L5.
theorem test_lds_negative_fields :
    (after (exec (.lds (wd (-1)) (wd (-7)) (wd (-15))) { State.reset with ryi := 3 })).map
      (fun t => (t.ryi, sint (t.slot 1), t.pc)) = some (1, -1, 4) := by decide
theorem test_lds_does_not_read_op2 :
    (after (exec (.lds 0 2 3) { State.reset.setSlot 2 9 with ryi := 5 })).map
      (fun t => (t.ryi, t.slot 2, t.ryValue)) = some (2, 9, 9) := by decide
-- V-H1.
theorem test_halt_first : (after (step (State.reset.loadProgram [0, 0, 0, 0]))).map
    (fun t => (t.state, t.pc, t.trace.length)) = some (.halted, 0, 2) := by decide

/-! ### The step -/

/-- The reference program P1 at its fourth to sixth instruction: registers, RYI and pc. -/
def p1At (x0 x1 x2 : Word) (ryi : Slot) (pc : Word) : State :=
  { ((State.reset.setSlot 0 x0).setSlot 1 x1).setSlot 2 x2 with
      ryi := ryi, pc := pc, progLen := 28,
      prog := Memory.ofWords 0 ([6, 74, 1, 1] ++ [6, 64, 2, 2] ++ [6, 41, 1, 0] ++ [1, 2, 1, 1] ++ [1, 2, 1, 1] ++
        [6, 0, 0, 0] ++ [0, 0, 0, 0]) }

-- P1 step 4: ADD runs as DIV; trace record 4 of section 2.7.
theorem test_p1_step4 : (after (step (p1At 41 74 64 1 12))).map (fun t => (t.slot 1, t.pc, t.state, t.trace)) =
    some (0, 16, .running, [.pre 12 1 4 true (.registers 64 74 1) (p1At 41 74 64 1 12).snapshot]) := by decide
-- P1 step 6, conflict C1: LDS runs as MOD and RY stays.
theorem test_p1_step6 : (after (step (p1At 41 64 64 1 20))).map (fun t => (t.slot 0, t.ryi, t.pc)) =
    some (0, 1, 24) := by decide
-- P1 step 7 and trace record 8.
theorem test_p1_step7 : (after (step (p1At 0 64 64 1 24))).map
    (fun t => (t.state, t.pc, t.statusCode, t.trace.getLast?)) =
    some (.halted, 24, some 1, some (.final .halted (p1At 0 64 64 1 24).snapshot)) := by decide
-- V-H3: HALT runs as LDS.
theorem test_halt_runs_as_lds :
    (after (step { (regs 0 2 1 3).loadProgram [0, 5, 2, 2] with ryi := 1 })).map
      (fun t => (t.ryi, t.slot 2, t.pc, t.state)) = some (2, 5, 4, .running) := by decide
-- V-D15's shape: an encoded ADD divides by zero.
theorem test_scrambled_division_by_zero :
    (after (step { (regs 0 41 1 74).loadProgram [1, 2, 3, 1] with ryi := 1 })).map
      (fun t => (t.state, t.pc, t.slot 1, t.trace.length)) = some (.divisionByZero, 0, 74, 2) := by decide
-- V-X1 and V-X3: the empty program, and the end of a program.
theorem test_empty_program : (after (step State.reset)).map (fun t => (t.state, t.pc, t.trace.length)) =
    some (.ok, 0, 1) := by decide
theorem test_end_of_program : (after (step (p1At 0 64 64 1 28))).map (fun t => (t.state, t.pc)) =
    some (.ok, 28) := by decide
theorem test_stopped : faultOf (step { p1At 0 64 64 1 24 with state := .halted }) = some (.stopped .halted) := by decide
theorem test_malformed : refusalOf (step { State.reset with progLen := 6 }) = some .malformedProgram := by decide
theorem test_invalid : refusalOf (step (p1At 0 64 64 1 26)) = some .invalidState := by decide

-- R31, R158: a stopped machine whose pc is -4, or whose program is malformed, is given no run.
theorem test_run_invalid :
    refusalOf (execute { p1At 0 64 64 1 (wd (-4)) with state := .halted }) = some .invalidState := by decide
theorem test_run_malformed :
    refusalOf (runSteps 0 { State.reset with progLen := 6, state := .ok }) = some .malformedProgram := by decide
-- V-X2: ADD(0,0,0) and then the end of the program.
theorem test_run_to_end : (after (execute (State.reset.loadProgram [1, 0, 0, 0]))).map
    (fun t => (t.state, t.pc, t.trace.length)) = some (.ok, 4, 2) := by decide

/-! ### Witnesses: the hypotheses of the statements can be met together -/

/-- An outcome that is a next state with a property. -/
theorem exists_next {o : Host.Outcome State Fault Refusal} {p : State → Bool} (h : (after o).any p = true) :
    ∃ t, o = .next t ∧ p t = true := by
  cases o with
  | next s => exact ⟨s, rfl, by simpa [after] using h⟩
  | fault f => simp [after] at h
  | refused r => simp [after] at h

-- EncodedAs, the clause of AddWritesWrappedSum to HaltStopsTheRun: a word 0 and product with each effective opcode.
theorem witness_EncodedAs : ∀ n : OpNum, ∃ word0 p : Word, effOf (baseOf word0) p = n ∧ baseOf word0 ≠ n := by
  intro n
  refine ⟨wd (n.val - 8), 1, ?_⟩
  revert n
  decide
-- DivWritesTruncatedQuotient, ModWritesTruncatedRemainder, NonCompletionStopsInPlace: both clauses.
theorem witness_divisors : sint ((regs 1 7 2 (wd (-2))).slot (idx 2)) ≠ 0 ∧ sint ((regs 1 7 2 0).slot (idx 2)) = 0 := by
  decide
-- ZeroDivisorStopsUnwritten, second clause.
theorem witness_ZeroDivisorStopsUnwritten :
    ∃ t, exec (.mod 1 2 3) (regs 1 7 2 0) = .next t ∧ (t.state == .divisionByZero) = true :=
  exists_next (by decide)
theorem witness_OverflowingQuotientWraps :
    (regs 1 0x80000000 2 0xFFFFFFFF).slot (idx 1) = 0x80000000#32 ∧
      (regs 1 0x80000000 2 0xFFFFFFFF).slot (idx 2) = 0xFFFFFFFF#32 := by decide
-- OneSlotAsAllOperands: three different words that name slot 1, which is not zero.
theorem witness_OneSlotAsAllOperands :
    idx 9 = idx 17 ∧ idx (wd (-7)) = idx 17 ∧ (regs 1 6 0 0).slot (idx 17) ≠ 0#32 := by decide
-- RegisterFieldsReduceModuloEight: the canonical word of each field's slot.
theorem witness_RegisterFieldsReduceModuloEight (v : Word) : (sint (wd (sint v % 8)) - sint v) % 8 = 0 := by
  rw [wd, sint_wrap32, Int.bmod_eq_of_le (by omega) (by omega)]
  omega
-- IndexRegisterWriters, InstructionsIgnoreTheStore.
theorem witness_exec_next : ∃ t, exec (.lds 5 4 3) State.reset = .next t ∧ (t.ryi == 4) = true :=
  exists_next (by decide)
-- IndexValuesAfterLds: the four cases of R125, with RXI = 0.
theorem witness_IndexValuesAfterLds :
    (∃ t, exec (.lds 5 2 3) (regs 0 1 2 9) = .next t ∧ (t.rxValue == 1 && t.ryValue == 9) = true) ∧
    (∃ t, exec (.lds 5 3 3) (regs 0 1 2 9) = .next t ∧ (t.rxValue == 1 && t.ryValue == 5) = true) ∧
    (∃ t, exec (.lds 5 2 0) (regs 0 1 2 9) = .next t ∧ (t.rxValue == 5 && t.ryValue == 9) = true) ∧
    ∃ t, exec (.lds 5 0 0) (regs 0 1 2 9) = .next t ∧ (t.rxValue == 5 && t.ryValue == 5) = true :=
  ⟨exists_next (by decide), exists_next (by decide), exists_next (by decide), exists_next (by decide)⟩
-- IndexValuesAfterArithmetic: a result in slot RXI = RYI, and elsewhere.
theorem witness_IndexValuesAfterArithmetic :
    (∃ t, exec (.add 1 1 0) (regs 0 2 1 3) = .next t ∧ (t.rxValue == 6 && t.ryValue == 6) = true) ∧
    ∃ t, exec (.sub 0 1 4) (regs 0 2 1 3) = .next t ∧ (t.rxValue == 2 && t.ryValue == 2) = true :=
  ⟨exists_next (by decide), exists_next (by decide)⟩
-- TracePortOnlyObserves: each of the three outcomes.
theorem witness_TracePortOnlyObserves :
    (∃ t, step State.reset = .next t ∧ (t.state == .ok) = true) ∧
    faultOf (step { State.reset with state := .ok }) = some (.stopped .ok) ∧
    refusalOf (step { State.reset with progLen := 1 }) = some .malformedProgram :=
  ⟨exists_next (by decide), by decide, by decide⟩
-- StepRunsTheDecodedInstruction: the last instruction of P1.
theorem witness_StepRunsTheDecodedInstruction :
    Startable (p1At 0 64 64 1 24) ∧ sint (p1At 0 64 64 1 24).pc < ((p1At 0 64 64 1 24).progLen : Int) ∧
      WordsAtPc (p1At 0 64 64 1 24) ⟨0, 0, 0, 0⟩ :=
  ⟨by decide, by decide, by decide, by decide, by decide, by decide⟩
-- ExhaustedProgramEndsOk.
theorem witness_ExhaustedProgramEndsOk :
    Startable (p1At 0 64 64 1 28) ∧ ((p1At 0 64 64 1 28).progLen : Int) ≤ sint (p1At 0 64 64 1 28).pc := by decide
-- TerminalConditionOfAStep, PcGrowsByTheStride, StoppingStepWritesNothing: the four conditions of a step.
theorem witness_TerminalConditionOfAStep :
    (∃ t, step (p1At 0 64 64 1 28) = .next t ∧ (t.state == .ok) = true) ∧
    (∃ t, step (p1At 0 64 64 1 24) = .next t ∧ (t.state == .halted) = true) ∧
    (∃ t, step (p1At 41 0 64 0 12) = .next t ∧ (t.state == .running) = true) ∧
    (∃ t, step { (regs 0 41 1 74).loadProgram [1, 2, 3, 1] with ryi := 1 } = .next t ∧
      (t.state == .divisionByZero) = true) ∧
    WordsAtPc (p1At 41 0 64 0 12) ⟨1, 2, 1, 1⟩ ∧
    WordsAtPc { (regs 0 41 1 74).loadProgram [1, 2, 3, 1] with ryi := 1 } ⟨1, 2, 3, 1⟩ :=
  ⟨exists_next (by decide), exists_next (by decide), exists_next (by decide), exists_next (by decide),
    ⟨by decide, by decide, by decide, by decide⟩, ⟨by decide, by decide, by decide, by decide⟩⟩
-- CompletionAdvancesPcByFour, NonCompletionStopsInPlace.
theorem witness_Completion :
    State.reset.state = .running ∧ Completes (.mod 1 2 3) (regs 1 7 2 1) ∧ ¬ Completes (.mod 1 2 3) (regs 1 7 2 0) ∧
      ¬ Completes (.halt 0 0 0) State.reset :=
  ⟨rfl, by unfold Completes; decide, by unfold Completes; decide, id⟩
-- TerminalStatesHaveNoStep.
theorem witness_TerminalStatesHaveNoStep :
    ProgLenOk 28 ∧ (p1At 0 64 64 1 28).Valid ∧
      ({ p1At 0 64 64 1 28 with state := .divisionByZero } : State).state = Status.engineState .divisionByZero := by
  decide
-- MalformedStartsAreRefused, RunsFromMalformedStartsAreRefused: both clauses at the edges, a length and three values of pc.
theorem witness_MalformedStartsAreRefused :
    2147483644 < 2147483648 ∧ 2147483648 % 4 = 0 ∧ 29 % 4 ≠ 0 ∧
      sint (p1At 0 0 0 0 (wd (-4))).pc < 0 ∧ sint (p1At 0 0 0 0 26).pc % 4 ≠ 0 ∧
      ((p1At 0 0 0 0 32).progLen : Int) < sint (p1At 0 0 0 0 32).pc := by decide
-- EveryStartableStateSteps, EveryRunEnds, TraceOfARun.
theorem witness_Startable : Startable (p1At 41 74 64 1 12) := by decide
-- ResetValues, ResetKeepsTheProgramAndIsStartable, FirstInstructionAfterResetRunsAsEncoded.
theorem witness_reset : State.reset = State.reset ∧ ProgLenOk (p1At 41 74 64 1 12).progLen ∧
    ProgLenOk ([6, 74, 1, 1] : List Word).length := by decide
-- LoadedProgramReadsBack: the last word, and MemRead inside and outside its domain.
theorem witness_LoadedProgramReadsBack :
    ([0, 5, 0, 7] : List Word)[3]? = some 7 ∧
      (State.reset.loadProgram [0, 5, 0, 7]).memRead 0 4 = some [0, 5, 0, 7] ∧
      (State.reset.loadProgram [0, 5, 0, 7]).memRead 1 4 = none := by decide
-- PlacedWordsRunNext, StepKeepsValidity.
theorem witness_Inv : MachineInv (p1At 41 74 64 1 12) ∧ (p1At 41 74 64 1 12).state = .running ∧
    (p1At 41 74 64 1 12).pc.toNat + 4 ≤ 2147483644 := by unfold MachineInv; decide
theorem witness_StepKeepsValidity : MachineInv (p1At 41 74 64 1 12) ∧
    ∃ t, step (p1At 41 74 64 1 12) = .next t ∧ (t.pc == 16) = true :=
  ⟨witness_Inv.1, exists_next (by decide)⟩
-- StepKeepsTraceForm.
theorem witness_StepKeepsTraceForm : TraceInv (p1At 0 64 64 1 24) ∧
    ∃ t, step (p1At 0 64 64 1 24) = .next t ∧ (t.state == .halted) = true :=
  ⟨fun _ h => absurd h (List.not_mem_nil), exists_next (by decide)⟩
-- RunsCompose.
theorem witness_RunsCompose :
    ∃ t, step (p1At 41 74 64 1 12) = .next t ∧ (t.state == .running) = true := exists_next (by decide)
-- StatusCodes: a state of each kind.
theorem witness_StatusCodes :
    (p1At 0 0 0 0 0).state = .running ∧ ({ State.reset with state := .ok } : State).state = .ok ∧
      ({ State.reset with state := .halted } : State).state = .halted ∧
      ({ State.reset with state := .divisionByZero } : State).state = .divisionByZero := by decide

end Sys2Proof.Tests
end

section
/-! What exec can do, said once for every state: an instruction halts, computes, divides or loads. With it the facts about
index registers and pc that every instruction obeys. -/

namespace Sys2Proof.Machine

/-- The four forms an instruction's meaning takes, uniformly in the state it runs in. -/
theorem exec_forms (i : Instr) :
    (∃ op1 op2 result, i = .halt op1 op2 result ∧ ∀ s, exec i s = .next (s.endRun .halted)) ∨
    (∃ f op1 op2 result,
      (i = .add op1 op2 result ∨ i = .sub op1 op2 result ∨ i = .mul op1 op2 result) ∧
        ∀ s, exec i s = .next (s.arith f op1 op2 result)) ∨
    (∃ f op1 op2 result, (i = .div op1 op2 result ∨ i = .mod op1 op2 result) ∧
        ∀ s, exec i s = .next (s.divide f op1 op2 result)) ∨
    (∃ op1 op2 result, i = .lds op1 op2 result ∧
        ∀ s, exec i s = .next ((s.redirectRy (idx op2)).setSlot (idx result) op1).complete) := by
  cases i with
  | halt op1 op2 result => exact .inl ⟨op1, op2, result, rfl, fun _ => rfl⟩
  | add op1 op2 result => exact .inr (.inl ⟨_, op1, op2, result, .inl rfl, fun _ => rfl⟩)
  | sub op1 op2 result => exact .inr (.inl ⟨_, op1, op2, result, .inr (.inl rfl), fun _ => rfl⟩)
  | mul op1 op2 result => exact .inr (.inl ⟨_, op1, op2, result, .inr (.inr rfl), fun _ => rfl⟩)
  | div op1 op2 result => exact .inr (.inr (.inl ⟨_, op1, op2, result, .inl rfl, fun _ => rfl⟩))
  | mod op1 op2 result => exact .inr (.inr (.inl ⟨_, op1, op2, result, .inr rfl, fun _ => rfl⟩))
  | lds op1 op2 result => exact .inr (.inr (.inr ⟨op1, op2, result, rfl, fun _ => rfl⟩))

/-- A next state of exec, by what made it: the end of the run, an arithmetic result, or a load. -/
theorem exec_next {i : Instr} {s t : State} (h : exec i s = .next t) :
    (i.operation ≠ .lds ∧ ∃ st, t = s.endRun st) ∨
    (i.operation ≠ .lds ∧ ∃ f op1 op2 result, t = s.arith f op1 op2 result) ∨
    (∃ op1 op2 result, i = .lds op1 op2 result ∧
      t = ((s.redirectRy (idx op2)).setSlot (idx result) op1).complete) := by
  rcases exec_forms i with ⟨op1, op2, result, hi, hexec⟩ | ⟨f, op1, op2, result, hi, hexec⟩ |
    ⟨f, op1, op2, result, hi, hexec⟩ | ⟨op1, op2, result, hi, hexec⟩ <;>
    obtain rfl := Host.Outcome.next.inj ((hexec s).symm.trans h)
  · exact .inl ⟨by subst hi; nofun, _, rfl⟩
  · exact .inr (.inl ⟨by rcases hi with rfl | rfl | rfl <;> nofun, f, op1, op2, result, rfl⟩)
  · have hop : i.operation ≠ .lds := by rcases hi with rfl | rfl <;> nofun
    by_cases hz : sint (s.slot (idx op2)) = 0
    · exact .inl ⟨hop, _, State.divide_zero hz⟩
    · exact .inr (.inl ⟨hop, f, op1, op2, result, State.divide_nonzero hz⟩)
  · exact .inr (.inr ⟨op1, op2, result, hi, rfl⟩)

/-- No instruction redirects RX (10_state.md R24). -/
theorem exec_rxi {i : Instr} {s t : State} (h : exec i s = .next t) : t.rxi = s.rxi := by
  rcases exec_next h with ⟨-, st, rfl⟩ | ⟨-, f, op1, op2, result, rfl⟩ | ⟨op1, op2, result, -, rfl⟩ <;> rfl

/-- RY moves by LDS only, to the slot its second operand names (10_state.md R24). -/
theorem exec_ryi {i : Instr} {s t : State} (h : exec i s = .next t) :
    (∃ op1 op2 result, i = .lds op1 op2 result ∧ t.ryi = idx op2) ∨ (i.operation ≠ .lds ∧ t.ryi = s.ryi) := by
  rcases exec_next h with ⟨hop, st, rfl⟩ | ⟨hop, f, op1, op2, result, rfl⟩ | ⟨op1, op2, result, hi, rfl⟩
  · exact .inr ⟨hop, rfl⟩
  · exact .inr ⟨hop, rfl⟩
  · exact .inl ⟨op1, op2, result, hi, rfl⟩

/-- An instruction either leaves STATE as it is and advances pc by the stride, or ends the run with pc kept. -/
theorem exec_pc {i : Instr} {s t : State} (h : exec i s = .next t) :
    (t.state = s.state ∧ t.pc = s.pc + 4#32) ∨ (t.state ≠ .running ∧ t.pc = s.pc) := by
  rcases exec_next h with ⟨-, st, rfl⟩ | ⟨-, f, op1, op2, result, rfl⟩ | ⟨op1, op2, result, -, rfl⟩
  · exact .inr ⟨by cases st <;> nofun, rfl⟩
  · exact .inl ⟨rfl, rfl⟩
  · exact .inl ⟨rfl, rfl⟩

/-- What RXI and RYI hold changes neither the slots, nor pc, nor STATE that an instruction answers: the zero divisor test
of a division reads a slot, and nothing else is tested. -/
theorem exec_ignores_index_registers {i : Instr} {s t : State} (h : exec i s = .next t) (j k : Slot) :
    ∃ t', exec i { s with rxi := j, ryi := k } = .next t' ∧ t'.x = t.x ∧ t'.pc = t.pc ∧ t'.state = t.state := by
  rcases exec_forms i with ⟨_, _, _, -, hexec⟩ | ⟨_, _, _, _, -, hexec⟩ | ⟨f, op1, op2, result, -, hexec⟩ |
    ⟨_, _, _, -, hexec⟩ <;> obtain rfl := Host.Outcome.next.inj ((hexec s).symm.trans h)
  · exact ⟨_, hexec _, rfl, rfl, rfl⟩
  · exact ⟨_, hexec _, rfl, rfl, rfl⟩
  · refine ⟨_, hexec _, ?_⟩
    by_cases hz : sint (s.slot (idx op2)) = 0
    · rw [State.divide_zero hz, State.divide_zero (s := { s with rxi := j, ryi := k }) hz]
      exact ⟨rfl, rfl, rfl⟩
    · rw [State.divide_nonzero hz, State.divide_nonzero (s := { s with rxi := j, ryi := k }) hz]
      exact ⟨rfl, rfl, rfl⟩
  · exact ⟨_, hexec _, rfl, rfl, rfl⟩

end Sys2Proof.Machine
end

section
/-! Operand words in register form (10_state.md R22): only the slot a word names matters. -/

namespace Sys2Proof.Machine

/-- Words congruent modulo 8 name one slot. -/
theorem idx_eq_of_mod_eight {v w : Word} (h : (sint v - sint w) % 8 = 0) : idx v = idx w := by
  have hv := idx_val v
  have hw := idx_val w
  exact Fin.ext (by omega)

section
variable {f : Word → Word} (hf : ∀ v, idx (f v) = idx v)
include hf

theorem State.source_of_idx_eq (s : State) (v : Word) : s.source (f v) = s.source v := by
  simp only [State.source, hf]

theorem State.arith_of_idx_eq (s : State) (g : Int → Int → Int) (op1 op2 result : Word) :
    s.arith g (f op1) (f op2) (f result) = s.arith g op1 op2 result := by
  simp only [State.arith, State.source, hf]

theorem State.divide_of_idx_eq (s : State) (g : Int → Int → Int) (op1 op2 result : Word) :
    s.divide g (f op1) (f op2) (f result) = s.divide g op1 op2 result := by
  simp only [State.divide, State.source_of_idx_eq hf, State.arith_of_idx_eq hf]

/-- A change of the register fields that keeps the slots they name changes no outcome. -/
theorem exec_mapRegisterFields (i : Instr) (s : State) : exec (mapRegisterFields f i) s = exec i s := by
  cases i with
  | halt _ _ _ => rfl
  | add _ _ _ | sub _ _ _ | mul _ _ _ => exact congrArg Host.Outcome.next (State.arith_of_idx_eq hf ..)
  | div _ _ _ | mod _ _ _ => exact congrArg Host.Outcome.next (State.divide_of_idx_eq hf ..)
  | lds _ _ _ => simp only [mapRegisterFields, exec, execLds, hf]

/-- Nor does it change the operand values of the trace record. -/
theorem State.operandValues_mapRegisterFields (i : Instr) (s : State) :
    s.operandValues (mapRegisterFields f i) = s.operandValues i := by
  cases i with
  | halt _ _ _ => rfl
  | add _ _ _ | sub _ _ _ | mul _ _ _ | div _ _ _ | mod _ _ _ =>
    simp only [mapRegisterFields, State.operandValues, State.source_of_idx_eq hf, hf]
  | lds _ _ _ => simp only [mapRegisterFields, State.operandValues, hf]

end

/-- Settles O12: a register field is used only through the slot it names. -/
theorem registerFieldsReduceModuloEight : Obligations.RegisterFieldsReduceModuloEight := by
  refine ⟨fun f hmod i s => ?_, fun s => ⟨?_, ?_, ?_⟩⟩
  · have hf : ∀ v, idx (f v) = idx v := fun v => idx_eq_of_mod_eight (hmod v)
    exact ⟨exec_mapRegisterFields hf i s, State.operandValues_mapRegisterFields hf i s⟩
  · exact congrArg s.slot (by decide)
  · exact congrArg s.slot (by decide)
  · exact congrArg s.slot (by decide)

end Sys2Proof.Machine
end

section
/-! The index registers and pc along a step (10_state.md R24, R26), and the reset values (R30). -/

namespace Sys2Proof.Machine

/-- No step redirects RX: neither the end of the program nor an instruction does. -/
theorem step_rxi {s t : State} (h : step s = .next t) : t.rxi = s.rxi := by
  obtain ⟨-, ⟨-, rfl⟩ | ⟨-, e, -, hexec⟩⟩ := step_next h
  · rfl
  · exact (exec_rxi hexec).trans (s.emit_rxi _)

/-- Settles O13, from what each instruction does to the index registers. -/
theorem indexRegisterWriters : Obligations.IndexRegisterWriters :=
  ⟨fun _ _ _ h => ⟨exec_rxi h, exec_ryi h, exec_ignores_index_registers h⟩, fun _ _ h => step_rxi h, rfl⟩

/-- Adding the stride to a word with room above it is adding it as an integer. -/
theorem sint_add_four {w : Word} (h : sint w + 4 < 2147483648) (hw : 0 ≤ sint w) :
    sint (w + 4#32) = sint w + 4 := by
  have hadd : sint (w + 4#32) = (sint w + 4).bmod (2 ^ 32) := by simp [sint, BitVec.toInt_add]
  rw [hadd, Int.bmod_eq_of_le (by omega) (by omega)]

/-- Below L the stride does not overflow pc (20_memory.md R41: L is at most PROG_LEN_MAX). -/
theorem Startable.sint_pc_add_four {s : State} (hs : Startable s) (hlt : sint s.pc < (s.progLen : Int)) :
    sint (s.pc + 4#32) = sint s.pc + 4 := by
  obtain ⟨⟨hmul, hmax⟩, ⟨hnonneg, haligned, -⟩, -⟩ := hs
  have hmax : s.progLen ≤ 2147483644 := hmax
  exact sint_add_four (by omega) hnonneg

/-- pc along a step: on by the stride while the machine runs on, kept where the run ends. -/
theorem step_pc {s t : State} (h : step s = .next t) :
    (t.state = .running ∧ sint t.pc = sint s.pc + 4) ∨ (t.state ≠ .running ∧ t.pc = s.pc) := by
  obtain ⟨hstart, ⟨-, rfl⟩ | ⟨hlt, e, -, hexec⟩⟩ := step_next h
  · exact .inr ⟨nofun, rfl⟩
  · have ⟨_, _, hrunning⟩ := hstart
    rcases exec_pc hexec with ⟨hstate, hpc⟩ | hstop
    · exact .inl ⟨hstate.trans hrunning, (congrArg sint hpc).trans (hstart.sint_pc_add_four hlt)⟩
    · exact .inr hstop

/-- Settles O33: a step starts from a valid pc, and `step_pc` says what becomes of it. -/
theorem pcGrowsByTheStride : Obligations.PcGrowsByTheStride := by
  intro s t h
  obtain ⟨-, ⟨hnonneg, haligned, -⟩, -⟩ := (step_next h).1
  rcases step_pc h with ⟨hrun, hpc⟩ | ⟨hstop, hpc⟩
  · exact ⟨by omega, by omega, fun _ => hpc, fun hn => absurd hrun hn⟩
  · exact ⟨hpc ▸ hnonneg, hpc ▸ haligned, fun hr => absurd hr hstop, fun _ => hpc⟩

@[simp] theorem State.reset_slot (k : Slot) : State.reset.slot k = 0#32 := by
  simp [State.reset, State.slot]

@[simp] theorem State.applyReset_slot (s : State) (k : Slot) : s.applyReset.slot k = 0#32 :=
  State.reset_slot k

/-- Settles O38: the reset input gives every register its value in the reset state. -/
theorem resetValues : Obligations.ResetValues := by
  rintro s t (rfl | rfl)
  · exact ⟨State.reset_slot, rfl, rfl, rfl, rfl⟩
  · exact ⟨s.applyReset_slot, rfl, rfl, rfl, rfl⟩

end Sys2Proof.Machine
end

section
/-! Instructions and the program store (20_memory.md R43): it is neither written nor read. -/

namespace Sys2Proof.Machine

/-- An instruction leaves the program as it is. -/
theorem exec_prog {i : Instr} {s t : State} (h : exec i s = .next t) : t.prog = s.prog ∧ t.progLen = s.progLen := by
  rcases exec_next h with ⟨-, st, rfl⟩ | ⟨-, f, op1, op2, result, rfl⟩ | ⟨op1, op2, result, -, rfl⟩ <;> exact ⟨rfl, rfl⟩

/-- The zero divisor test reads a slot, so a division goes the same way over any program. -/
theorem State.divide_withProgram (s : State) (f : Int → Int → Int) (op1 op2 result : Word) (m : Memory) (n : Nat) :
    State.divide { s with prog := m, progLen := n } f op1 op2 result =
      { s.divide f op1 op2 result with prog := m, progLen := n } := by
  by_cases hz : sint (s.slot (idx op2)) = 0
  · rw [State.divide_zero hz, State.divide_zero (s := { s with prog := m, progLen := n }) hz]
    rfl
  · rw [State.divide_nonzero hz, State.divide_nonzero (s := { s with prog := m, progLen := n }) hz]
    rfl

/-- Over another program an instruction answers the same next state, with that program in it. -/
theorem exec_withProgram {i : Instr} {s t : State} (h : exec i s = .next t) (m : Memory) (n : Nat) :
    exec i { s with prog := m, progLen := n } = .next { t with prog := m, progLen := n } := by
  rcases exec_forms i with ⟨_, _, _, -, hexec⟩ | ⟨_, _, _, _, -, hexec⟩ | ⟨_, _, _, _, -, hexec⟩ |
    ⟨_, _, _, -, hexec⟩ <;> obtain rfl := Host.Outcome.next.inj ((hexec s).symm.trans h)
  · exact hexec _
  · exact hexec _
  · exact (hexec _).trans (congrArg Host.Outcome.next (s.divide_withProgram ..))
  · exact hexec _

/-- Settles O16: the program is kept, and what an instruction does does not depend on it. -/
theorem instructionsIgnoreTheStore : Obligations.InstructionsIgnoreTheStore := by
  intro i s t h
  obtain ⟨hprog, hlen⟩ := exec_prog h
  exact ⟨hprog, hlen, exec_withProgram h⟩

end Sys2Proof.Machine
end

section
/-! The opcode map read in both directions, and what decoding makes of four words (30_encoding.md R63, R66, R67). -/

namespace Sys2Proof

@[simp] theorem Operation.number_ofNumber (n : OpNum) : (Operation.ofNumber n).number = n := by
  revert n
  decide

@[simp] theorem Operation.operation_instr (o : Operation) (op1 op2 result : Word) :
    (o.instr op1 op2 result).operation = o := by
  cases o <;> rfl

@[simp] theorem Instr.wellFormed_eq_true (i : Instr) : i.wellFormed = true := by
  cases i <;> rfl

@[simp] theorem Encoded.operation_instr (e : Encoded) (p : Word) :
    (e.instr p).operation = Operation.ofNumber (effOf (baseOf e.word0) p) :=
  Operation.operation_instr ..

/-- The instruction of four words is what its operation makes of the operand words as they stand. -/
theorem Encoded.instr_eq_instr_operation (e : Encoded) (p : Word) :
    e.instr p = (e.instr p).operation.instr e.op1 e.op2 e.result := by
  rw [Encoded.operation_instr, Encoded.instr]

/-- Settles O23: four words decode to their instruction, whose operation is the effective opcode's. -/
theorem everyFourWordsAreAnInstruction : Obligations.EveryFourWordsAreAnInstruction := by
  intro p word0 op1 op2 result rest
  let e : Encoded := ⟨word0, op1, op2, result⟩
  have hnumber : (e.instr p).operation.number = effOf (baseOf word0) p := by simp [e]
  exact ⟨e.instr p, _, rfl, Instr.wellFormed_eq_true _, rfl, hnumber, e.instr_eq_instr_operation p⟩

end Sys2Proof
end

section
/-! The opcode scrambler (40_fetch_decode_dispatch.md R86, R88): both reductions are Euclidean remainders, and a product
that is a multiple of 7 adds nothing to the base opcode. -/

namespace Sys2Proof

theorem baseOf_val (word0 : Word) : ((baseOf word0).val : Int) = sint word0 % 7 :=
  Machine.residue7_val _

theorem effOf_val (base : OpNum) (p : Word) : ((effOf base p).val : Int) = ((base.val : Int) + sint p) % 7 :=
  Machine.residue7_val _

theorem resolve_val (word0 rx ry : Word) :
    ((resolve word0 rx ry).val : Int) = ((baseOf word0).val + sint (scrambleProduct rx ry)) % 7 :=
  effOf_val _ _

/-- Settles O18: the two opcodes are themselves the residues. -/
theorem scramblerReductionsAreEuclidean : Obligations.ScramblerReductionsAreEuclidean := by
  intro word0 rx ry
  have hbase := baseOf_val word0
  have heff := resolve_val word0 rx ry
  refine ⟨(baseOf word0).val, (resolve word0 rx ry).val, ?_, ?_, ?_, ?_, ?_, ?_, rfl, rfl⟩ <;> omega

/-- The base opcode is already reduced, so it comes out unchanged exactly when a multiple of 7 was added. -/
theorem effOf_eq_base_iff (base : OpNum) (p : Word) : effOf base p = base ↔ sint p % 7 = 0 := by
  have heff := effOf_val base p
  have hlt := base.isLt
  rw [Fin.ext_iff]
  omega

theorem resolve_eq_baseOf_iff (word0 rx ry : Word) :
    resolve word0 rx ry = baseOf word0 ↔ sint (scrambleProduct rx ry) % 7 = 0 :=
  effOf_eq_base_iff _ _

theorem scrambleProduct_of_zero {rx ry : Word} (h : rx = 0#32 ∨ ry = 0#32) : scrambleProduct rx ry = 0#32 := by
  rcases h with rfl | rfl <;> simp [scrambleProduct, wrap32]

/-- Settles O20: the products of R88's examples are 0, 7 and, by the wrap, 0. -/
theorem scramblingIsOffExactlyAtMultiplesOfSeven : Obligations.ScramblingIsOffExactlyAtMultiplesOfSeven := by
  refine ⟨resolve_eq_baseOf_iff, fun word0 rx ry h => ?_, fun word0 => ⟨?_, ?_⟩⟩
  · rw [resolve_eq_baseOf_iff, scrambleProduct_of_zero h]
    rfl
  · exact (resolve_eq_baseOf_iff ..).2 (by decide)
  · exact (resolve_eq_baseOf_iff ..).2 (by decide)

end Sys2Proof
end

section
/-! How a step ends a run that has come to the end of its program (40_fetch_decode_dispatch.md R81), and which
instructions complete (R91). -/

namespace Sys2Proof.Machine

/-- The loop test of a step: at or above L there is no fetch, and the run ends with Ok. -/
theorem step_exhausted {s : State} (hs : Startable s) (hend : (s.progLen : Int) ≤ sint s.pc) :
    step s = .next (s.endRun .ok) := by
  obtain ⟨hlen, hvalid, hrunning⟩ := hs
  have hcheck : s.startRefusal = none := State.startRefusal_eq_none.2 ⟨hlen, hvalid⟩
  have hstatus : s.state.status = none := EngineState.status_eq_none.2 hrunning
  simp only [step, State.plan, hcheck, hstatus, hend, if_true]

/-- Settles O29: the step is the shared entry into Ok, whose effect is known. -/
theorem exhaustedProgramEndsOk : Obligations.ExhaustedProgramEndsOk :=
  fun s hs hend => ⟨_, step_exhausted hs hend, s.endRun_spec .ok⟩

/-- Every instruction answers a next state: none faults and none is refused. -/
theorem exists_exec_next (i : Instr) (s : State) : ∃ t, exec i s = .next t := by
  rcases exec_forms i with ⟨_, _, _, -, hexec⟩ | ⟨_, _, _, _, -, hexec⟩ | ⟨_, _, _, _, -, hexec⟩ |
    ⟨_, _, _, -, hexec⟩ <;> exact ⟨_, hexec s⟩

/-- From a Running state, the instructions that complete are those after which the machine still runs. -/
theorem completes_iff_running {i : Instr} {s t : State} (hs : s.state = .running) (h : exec i s = .next t) :
    Completes i s ↔ t.state = .running := by
  rcases exec_forms i with ⟨_, _, _, rfl, hexec⟩ | ⟨f, _, _, _, hi, hexec⟩ | ⟨f, op1, op2, result, hi, hexec⟩ |
    ⟨_, _, _, rfl, hexec⟩ <;> obtain rfl := Host.Outcome.next.inj ((hexec s).symm.trans h)
  · exact iff_of_false id nofun
  · exact iff_of_true (by rcases hi with rfl | rfl | rfl <;> trivial) hs
  · have hcompletes : Completes i s ↔ sint (s.slot (idx op2)) ≠ 0 := by rcases hi with rfl | rfl <;> rfl
    rw [hcompletes]
    by_cases hz : sint (s.slot (idx op2)) = 0
    · rw [State.divide_zero hz]
      exact iff_of_false (not_not.2 hz) nofun
    · rw [State.divide_nonzero hz]
      exact iff_of_true hz hs
  · exact iff_of_true trivial hs

/-- Settles O31: an instruction after which the machine still runs has advanced pc by the stride. -/
theorem completionAdvancesPcByFour : Obligations.CompletionAdvancesPcByFour := by
  intro i s hs
  constructor
  · intro hc
    obtain ⟨t, h⟩ := exists_exec_next i s
    have hrun : t.state = .running := (completes_iff_running hs h).1 hc
    rcases exec_pc h with ⟨-, hpc⟩ | ⟨hstop, -⟩
    · exact ⟨t, h, hpc, hrun⟩
    · exact absurd hrun hstop
  · rintro ⟨t, h, -, hrun⟩
    exact (completes_iff_running hs h).2 hrun

end Sys2Proof.Machine
end

section
/-! The encoding of an operation: its number, and the four words that run as it (30_encoding.md R63, R66, R71). -/

namespace Sys2Proof

/-- A word 0 whose base opcode is n encodes the operation numbered n: under every product, decoding goes by the effective
opcode alone. -/
theorem encodedAs_ofNumber {n : OpNum} {canonical : Word} (h : baseOf canonical = n) :
    Machine.EncodedAs n canonical (Operation.ofNumber n).instr :=
  ⟨h, fun p word0 op1 op2 result heff => by rw [decode, Encoded.instr, heff]⟩

end Sys2Proof
end

section
/-! ADD, SUB and MUL (41_arithmetic.md R101 to R103): the exact result, wrapped. -/

namespace Sys2Proof.Machine

/-- Writing an integer to a register keeps it modulo 2^32. -/
theorem sint_wrap32_sub_mod (z : Int) : (sint (wrap32 z) - z) % 2 ^ 32 = 0 := by
  rw [sint_wrap32]
  exact Int.emod_eq_emod_iff_emod_sub_eq_zero.1 Int.bmod_emod

/-- The destination of an arithmetic instruction holds the exact result modulo 2^32. -/
theorem State.arith_slot_sub_mod (s : State) (f : Int → Int → Int) (op1 op2 result : Word) :
    (sint ((s.arith f op1 op2 result).slot (idx result)) -
      f (sint (s.slot (idx op1))) (sint (s.slot (idx op2)))) % 2 ^ 32 = 0 := by
  rw [(s.arith_spec f op1 op2 result).1]
  exact sint_wrap32_sub_mod _

theorem State.arith_frame (s : State) (f : Int → Int → Int) (op1 op2 result : Word) :
    RegisterFrame s (s.arith f op1 op2 result) (idx result) :=
  (s.arith_spec f op1 op2 result).2

/-- Settles O1: ADD is the arithmetic instruction of the sum. -/
theorem addWritesWrappedSum : Obligations.AddWritesWrappedSum :=
  ⟨encodedAs_ofNumber (by decide), fun s op1 op2 result =>
    ⟨_, rfl, s.arith_slot_sub_mod _ op1 op2 result, s.arith_frame ..⟩⟩

/-- Settles O2: SUB is the arithmetic instruction of the difference, its second operand subtracted. -/
theorem subWritesWrappedDifference : Obligations.SubWritesWrappedDifference :=
  ⟨encodedAs_ofNumber (by decide), fun s op1 op2 result =>
    ⟨_, rfl, s.arith_slot_sub_mod _ op1 op2 result, s.arith_frame ..⟩⟩

/-- Settles O3: MUL is the arithmetic instruction of the product. -/
theorem mulWritesWrappedProduct : Obligations.MulWritesWrappedProduct :=
  ⟨encodedAs_ofNumber (by decide), fun s op1 op2 result =>
    ⟨_, rfl, s.arith_slot_sub_mod _ op1 op2 result, s.arith_frame ..⟩⟩

end Sys2Proof.Machine
end

section
/-! DIV and MOD (41_arithmetic.md R104, R105, R109): truncating division, and the stop at a zero divisor. -/

namespace Sys2Proof.Machine

theorem eq_mul_tdiv_add_trem (a b : Int) : a = b * tdiv a b + trem a b := by
  unfold trem
  omega

/-- The model's remainder is the library's remainder of truncating division. -/
theorem trem_eq_tmod (a b : Int) : trem a b = a.tmod b := (Int.tmod_def a b).symm

theorem abs_trem_lt (a : Int) {b : Int} (hb : b ≠ 0) : |trem a b| < |b| := by
  rw [trem_eq_tmod, Int.abs_eq_natAbs, Int.abs_eq_natAbs, Int.natAbs_tmod]
  exact_mod_cast Nat.mod_lt _ (Int.natAbs_pos.2 hb)

/-- A remainder that is not zero has the sign of the dividend. -/
theorem trem_eq_zero_or_neg_iff (a b : Int) : trem a b = 0 ∨ (trem a b < 0 ↔ a < 0) := by
  rw [trem_eq_tmod]
  have hsign := Int.sign_tmod a b
  split at hsign
  · exact .inl (Int.sign_eq_zero_iff_zero.1 hsign)
  · exact .inr (by rw [← Int.sign_neg_iff, hsign, Int.sign_neg_iff])

/-- An integer smaller in magnitude than some word's value fits a register. -/
theorem sint_wrap32_of_abs_lt {z : Int} {w : Word} (h : |z| < |sint w|) : sint (wrap32 z) = z := by
  have hw : |sint w| ≤ 2 ^ 31 := abs_le.2 ⟨w.le_toInt, w.toInt_lt.le⟩
  obtain ⟨hlo, hhi⟩ := abs_lt.1 (h.trans_le hw)
  rw [sint_wrap32, Int.bmod_eq_of_le (by omega) (by omega)]

section
variable {s : State} {op1 op2 result : Word}

/-- By a zero divisor DIV and MOD alike enter DivisionByZero. -/
theorem exec_zero_divisor (h : sint (s.slot (idx op2)) = 0) :
    exec (.div op1 op2 result) s = .next (s.endRun .divisionByZero) ∧
      exec (.mod op1 op2 result) s = .next (s.endRun .divisionByZero) :=
  ⟨congrArg Host.Outcome.next (State.divide_zero h), congrArg Host.Outcome.next (State.divide_zero h)⟩

theorem exec_div_nonzero (h : sint (s.slot (idx op2)) ≠ 0) :
    exec (.div op1 op2 result) s = .next (s.arith tdiv op1 op2 result) :=
  congrArg Host.Outcome.next (State.divide_nonzero h)

theorem exec_mod_nonzero (h : sint (s.slot (idx op2)) ≠ 0) :
    exec (.mod op1 op2 result) s = .next (s.arith trem op1 op2 result) :=
  congrArg Host.Outcome.next (State.divide_nonzero h)

/-- The remainder by a register's value needs no wrapping (41_arithmetic.md R105). -/
theorem State.arith_trem_slot (h : sint (s.slot (idx op2)) ≠ 0) :
    sint ((s.arith trem op1 op2 result).slot (idx result)) =
      trem (sint (s.slot (idx op1))) (sint (s.slot (idx op2))) := by
  rw [(s.arith_spec trem op1 op2 result).1]
  exact sint_wrap32_of_abs_lt (abs_trem_lt _ h)

end

/-- Settles O4: the quotient written is the one whose remainder is `trem`. -/
theorem divWritesTruncatedQuotient : Obligations.DivWritesTruncatedQuotient := by
  refine ⟨encodedAs_ofNumber (by decide), fun s op1 op2 result => ⟨fun hb => ?_, fun hb => ?_⟩⟩
  · exact ⟨_, exec_div_nonzero hb,
      ⟨_, _, eq_mul_tdiv_add_trem _ _, abs_trem_lt _ hb, trem_eq_zero_or_neg_iff _ _, s.arith_slot_sub_mod ..⟩,
      s.arith_frame ..⟩
  · exact ⟨_, (exec_zero_divisor hb).1, s.endRun_spec _⟩

/-- Settles O5: the remainder fits a register, so the destination holds `trem` itself. -/
theorem modWritesTruncatedRemainder : Obligations.ModWritesTruncatedRemainder := by
  refine ⟨encodedAs_ofNumber (by decide), fun s op1 op2 result => ⟨fun hb => ?_, fun hb => ?_⟩⟩
  · refine ⟨_, exec_mod_nonzero hb, ?_⟩
    rw [State.arith_trem_slot hb]
    exact ⟨⟨_, eq_mul_tdiv_add_trem _ _⟩, abs_trem_lt _ hb, trem_eq_zero_or_neg_iff _ _, s.arith_frame ..⟩
  · exact ⟨_, (exec_zero_divisor hb).2, s.endRun_spec _⟩

/-- Only a division by a zero register enters DivisionByZero: HALT enters Halted, and completion keeps STATE. -/
theorem zero_divisor_of_exec_divisionByZero {i : Instr} {s t : State} (h : exec i s = .next t)
    (ht : t.state = .divisionByZero) (hs : s.state ≠ .divisionByZero) :
    ∃ op1 op2 result, (i = .div op1 op2 result ∨ i = .mod op1 op2 result) ∧ sint (s.slot (idx op2)) = 0 := by
  rcases exec_forms i with ⟨_, _, _, -, hexec⟩ | ⟨_, _, _, _, -, hexec⟩ | ⟨f, op1, op2, result, hi, hexec⟩ |
    ⟨_, _, _, -, hexec⟩ <;> obtain rfl := Host.Outcome.next.inj ((hexec s).symm.trans h)
  · exact absurd ht nofun
  · exact absurd ht hs
  · by_cases hz : sint (s.slot (idx op2)) = 0
    · exact ⟨op1, op2, result, hi, hz⟩
    · rw [State.divide_nonzero hz] at ht
      exact absurd ht hs
  · exact absurd ht hs

/-- Settles O8: both divisions enter the terminal condition the same way, and nothing else enters it. -/
theorem zeroDivisorStopsUnwritten : Obligations.ZeroDivisorStopsUnwritten :=
  ⟨fun s _ _ _ h => ⟨_, (exec_zero_divisor h).1, (exec_zero_divisor h).2, s.endRun_spec _⟩,
    fun _ _ _ => zero_divisor_of_exec_divisionByZero⟩

end Sys2Proof.Machine
end

section
/-! LDS (42_lds.md R120): RY redirected, the literal loaded, then completion. -/

namespace Sys2Proof.Machine

/-- The load's destination holds the literal, and no other slot changes: redirecting RY and completing write none. -/
theorem State.load_slot (s : State) (j dest k : Slot) (w : Word) :
    ((s.redirectRy j).setSlot dest w).complete.slot k = if k = dest then w else s.slot k := by
  rw [State.complete_slot, State.slot_setSlot, State.redirectRy_slot]

/-- Settles O6: LDS is a load whose RY slot and destination are the residues its words name. -/
theorem ldsLoadsLiteralAndRedirectsRy : Obligations.LdsLoadsLiteralAndRedirectsRy := by
  refine ⟨encodedAs_ofNumber (by decide), fun s op1 op2 result =>
    ⟨_, rfl, idx_val op2, ?_, fun k hk => ?_, rfl, rfl, rfl, rfl, rfl, fun _ => rfl⟩⟩
  · exact (s.load_slot ..).trans (if_pos rfl)
  · exact (s.load_slot ..).trans (if_neg hk)

end Sys2Proof.Machine
end

section
/-! HALT (43_halt.md R130): the shared entry into Halted, whatever the operand words. -/

namespace Sys2Proof.Machine

theorem exec_halt (op1 op2 result : Word) (s : State) :
    exec (.halt op1 op2 result) s = .next (s.endRun .halted) := rfl

/-- Settles O7: HALT is the shared entry into Halted, whose effect is known. -/
theorem haltStopsTheRun : Obligations.HaltStopsTheRun :=
  ⟨encodedAs_ofNumber (by decide), fun s op1 op2 result =>
    ⟨_, exec_halt op1 op2 result s, s.endRun_spec .halted⟩⟩

end Sys2Proof.Machine
end

section
/-! The trace port (60_exceptions.md R155): a record put out changes the trace alone, and no step reads it. -/

namespace Sys2Proof.Machine

/-- What a step is about to do does not depend on the trace. -/
theorem State.plan_withTrace (s : State) (l : List TraceRecord) : State.plan { s with trace := l } = s.plan := rfl

/-- With another trace an instruction answers a next state that differs in the trace alone: the zero divisor test of a
division reads a slot, and a final record is appended to whatever stands on the port. -/
theorem exec_withTrace {i : Instr} {s t : State} (h : exec i s = .next t) (l : List TraceRecord) :
    ∃ t', exec i { s with trace := l } = .next t' ∧ AgreeButTrace t' t := by
  rcases exec_forms i with ⟨_, _, _, -, hexec⟩ | ⟨_, _, _, _, -, hexec⟩ | ⟨f, op1, op2, result, -, hexec⟩ |
    ⟨_, _, _, -, hexec⟩ <;> obtain rfl := Host.Outcome.next.inj ((hexec s).symm.trans h) <;>
    refine ⟨_, hexec _, ?_⟩
  · rfl
  · rfl
  · by_cases hz : sint (s.slot (idx op2)) = 0
    · rw [State.divide_zero hz, State.divide_zero (s := { s with trace := l }) hz]
      rfl
    · rw [State.divide_nonzero hz, State.divide_nonzero (s := { s with trace := l }) hz]
      rfl
  · rfl

/-- With another trace a step answers a next state that differs in the trace alone. -/
theorem step_withTrace {s t : State} (h : step s = .next t) (l : List TraceRecord) :
    ∃ t', step { s with trace := l } = .next t' ∧ AgreeButTrace t' t := by
  rw [step, State.plan_withTrace]
  rw [step] at h
  cases hplan : s.plan with
  | refuse r => simp [hplan] at h
  | stop f => simp [hplan] at h
  | exhausted =>
    obtain rfl : s.endRun .ok = t := by simpa [hplan] using h
    exact ⟨_, rfl, rfl⟩
  | execute record i =>
    have hexec : exec i (s.emit record) = .next t := by simpa [hplan] using h
    exact exec_withTrace hexec (l ++ [record])

/-- With another trace a step that answers no next state answers the same: it has executed nothing, because every
instruction answers a next state. -/
theorem step_withTrace_of_not_next {s : State} (h : ∀ t, step s ≠ .next t) (l : List TraceRecord) :
    step { s with trace := l } = step s := by
  unfold step at h ⊢
  rw [State.plan_withTrace]
  cases hplan : s.plan with
  | refuse r => rfl
  | stop f => rfl
  | exhausted => exact absurd (by rw [hplan]) (h (s.endRun .ok))
  | execute record i =>
    obtain ⟨t, hexec⟩ := exists_exec_next i (s.emit record)
    exact absurd (by rw [hplan]; exact hexec) (h t)

/-- Settles O17: the plan of a step ignores the trace, and so does the instruction it executes. -/
theorem tracePortOnlyObserves : Obligations.TracePortOnlyObserves := by
  refine ⟨fun _ _ => rfl, fun s l => ⟨fun t h => step_withTrace h l, fun f h => ?_, fun r h => ?_⟩⟩
  · exact (step_withTrace_of_not_next (by rw [h]; nofun) l).trans h
  · exact (step_withTrace_of_not_next (by rw [h]; nofun) l).trans h

end Sys2Proof.Machine
end

section
/-! The terminal conditions (60_exceptions.md R140): which of them an instruction, and so a step, ends in. -/

namespace Sys2Proof.Machine

/-- A fetch that answers finds the four words at pc. -/
theorem State.fetch_eq_of_wordsAtPc {s : State} {e e' : Encoded} (hwords : WordsAtPc s e)
    (hfetch : s.fetch = some e') : e' = e := by
  obtain ⟨hword0, hop1, hop2, hresult⟩ := hwords
  unfold State.fetch State.memRead at hfetch
  by_cases hroom : s.pc.toNat + Config.stride ≤ s.progLen
  · rw [if_pos hroom] at hfetch
    simp only [Memory.readWords, Nat.add_assoc, Nat.reduceAdd, hword0, hop1, hop2, hresult] at hfetch
    exact (Option.some.inj hfetch).symm
  · rw [if_neg hroom] at hfetch
    nomatch hfetch

/-- What STATE holds after an operation has run in a Running state. -/
theorem exec_instr_state {o : Operation} {op1 op2 result : Word} {s t : State} (hs : s.state = .running)
    (h : exec (o.instr op1 op2 result) s = .next t) :
    t.state = if o = .halt then .halted
      else if (o = .div ∨ o = .mod) ∧ sint (s.slot (idx op2)) = 0 then .divisionByZero else .running := by
  have hdivide (f : Int → Int → Int) : (s.divide f op1 op2 result).state =
      if sint (s.slot (idx op2)) = 0 then .divisionByZero else .running := by
    split
    · next hz => rw [State.divide_zero hz]; rfl
    · next hz => rw [State.divide_nonzero hz]; exact hs
  cases o with
  | halt => cases h; rfl
  | add | sub | mul | lds => cases h; simpa using hs
  | div | mod => cases h; simpa using hdivide _

/-- Settles O30: at the end of the program the step ends in Ok; below it the executed operation alone decides. -/
theorem terminalConditionOfAStep : Obligations.TerminalConditionOfAStep := by
  intro s t e hwords h
  obtain ⟨⟨-, -, hrunning⟩, ⟨hend, rfl⟩ | ⟨hlt, e', hfetch, hexec⟩⟩ := step_next h
  · have hnlt : ¬ sint s.pc < (s.progLen : Int) := not_lt.2 hend
    exact ⟨hrunning, iff_of_true rfl hend, iff_of_false nofun fun h => hnlt h.1,
      iff_of_false nofun fun h => hnlt h.1, iff_of_false nofun fun h => hnlt h.1⟩
  · obtain rfl := State.fetch_eq_of_wordsAtPc hwords hfetch
    have hcompletes : Completes (e'.instr s.product) s ↔ t.state = .running :=
      completes_iff_running (s := s.emit (s.preRecord e')) hrunning hexec
    rw [Encoded.instr_eq_instr_operation] at hexec
    have hstate := exec_instr_state (s := s.emit (s.preRecord e')) hrunning hexec
    rw [State.emit_slot] at hstate
    refine ⟨hrunning, iff_of_false ?_ (not_le.2 hlt), ?_, ?_, ?_⟩
    · rw [hstate]
      split_ifs <;> nofun
    · rw [and_iff_right hlt, hstate]
      split_ifs with hhalt hzero
      · exact iff_of_true rfl hhalt
      · exact iff_of_false nofun hhalt
      · exact iff_of_false nofun hhalt
    · rw [and_iff_right hlt, hstate]
      split_ifs with hhalt hzero
      · rw [hhalt]
        exact iff_of_false nofun nofun
      · exact iff_of_true rfl hzero
      · exact iff_of_false nofun hzero
    · rw [and_iff_right hlt, hcompletes]

end Sys2Proof.Machine
end

section
/-! Stopping in place (70_reset_and_hazards.md R176): a step that stops the run writes nothing but STATE and the trace. -/

namespace Sys2Proof.Machine

/-- An instruction that stops a running machine does nothing but enter a terminal condition: a result or a load keeps
STATE. -/
theorem exists_eq_endRun_of_exec_stops {i : Instr} {s t : State} (hs : s.state = .running) (h : exec i s = .next t)
    (ht : t.state ≠ .running) : ∃ st, t = s.endRun st := by
  rcases exec_next h with ⟨-, hend⟩ | ⟨-, _, _, _, _, rfl⟩ | ⟨_, _, _, -, rfl⟩
  · exact hend
  · exact absurd hs ht
  · exact absurd hs ht

/-- A step that stops the run enters a terminal condition from the machine it started in, or from that machine with the
pre-execution record put out. -/
theorem exists_eq_endRun_of_step_stops {s t : State} (h : step s = .next t) (ht : t.state ≠ .running) :
    ∃ st, t = s.endRun st ∨ ∃ r, t = (s.emit r).endRun st := by
  obtain ⟨⟨-, -, hrunning⟩, ⟨-, hend⟩ | ⟨-, e, -, hexec⟩⟩ := step_next h
  · exact ⟨.ok, .inl hend⟩
  · obtain ⟨st, hend⟩ := exists_eq_endRun_of_exec_stops (s := s.emit (s.preRecord e)) hrunning hexec ht
    exact ⟨st, .inr ⟨_, hend⟩⟩

/-- Settles O34: entering a terminal condition keeps the registers, pc and the program, and so does a trace record. -/
theorem stoppingStepWritesNothing : Obligations.StoppingStepWritesNothing := by
  intro s t h ht
  obtain ⟨st, rfl | ⟨r, rfl⟩⟩ := exists_eq_endRun_of_step_stops h ht
  · obtain ⟨-, -, hkept⟩ := s.endRun_spec st
    exact hkept
  · obtain ⟨-, -, hkept⟩ := (s.emit r).endRun_spec st
    exact hkept

end Sys2Proof.Machine
end

section
/-! Encoder and decoder (30_encoding.md R60, R62, R71; 40_fetch_decode_dispatch.md R83, R95): under every product the
scrambler is a bijection of the base opcodes, and the encoder's word 0 is its inverse. -/

namespace Sys2Proof

@[simp] theorem Operation.ofNumber_number (o : Operation) : Operation.ofNumber o.number = o := by
  cases o <;> rfl

theorem Operation.ofNumber_eq_iff {n : OpNum} {o : Operation} : Operation.ofNumber n = o ↔ n = o.number :=
  ⟨fun h => by rw [← h, Operation.number_ofNumber], fun h => by rw [h, Operation.ofNumber_number]⟩

/-- Every instruction is what its operation makes of three operand words. -/
theorem Instr.exists_eq_instr (i : Instr) : ∃ op1 op2 result, i = i.operation.instr op1 op2 result := by
  cases i <;> exact ⟨_, _, _, rfl⟩

theorem encode_instr (p : Word) (o : Operation) (op1 op2 result : Word) :
    encode p (o.instr op1 op2 result) = [encodeWord0 p o.number, op1, op2, result] := by
  cases o <;> rfl

/-- An integer of the signed range stays itself in a register. -/
theorem sint_wrap32_of_range {z : Int} (hlo : -2147483648 ≤ z) (hhi : z < 2147483648) : sint (wrap32 z) = z := by
  rw [Machine.sint_wrap32, Int.bmod_eq_of_le (by omega) (by omega)]

theorem sint_encodeWord0 (p : Word) (n : OpNum) : sint (encodeWord0 p n) = ((n.val : Int) - sint p) % 7 :=
  sint_wrap32_of_range (by unfold emod; omega) (by unfold emod; omega)

theorem effOf_eq_iff (b n : OpNum) (p : Word) : effOf b p = n ↔ ((b.val : Int) + sint p - n.val) % 7 = 0 := by
  have heff := effOf_val b p
  have hlt := n.isLt
  rw [Fin.ext_iff]
  omega

/-- The encoder's word 0 has the base opcode b exactly if b runs as the encoded number (40 R95). -/
theorem baseOf_encodeWord0_eq_iff (p : Word) (b n : OpNum) : baseOf (encodeWord0 p n) = b ↔ effOf b p = n := by
  have hbase := baseOf_val (encodeWord0 p n)
  rw [sint_encodeWord0] at hbase
  have hlt := b.isLt
  rw [effOf_eq_iff, Fin.ext_iff]
  omega

theorem effOf_baseOf_encodeWord0 (p : Word) (n : OpNum) : effOf (baseOf (encodeWord0 p n)) p = n :=
  (baseOf_encodeWord0_eq_iff p _ n).1 rfl

/-- Settles O24: the effective opcode of the encoder's word 0 is the number encoded. -/
theorem decodeOfEncodeIsTheInstruction : Obligations.DecodeOfEncodeIsTheInstruction := by
  intro p i rest
  obtain ⟨op1, op2, result, hi⟩ := i.exists_eq_instr
  generalize i.operation = o at hi
  subst hi
  have hinstr : Encoded.instr ⟨encodeWord0 p o.number, op1, op2, result⟩ p = o.instr op1 op2 result := by
    rw [Encoded.instr, effOf_baseOf_encodeWord0, Operation.ofNumber_number]
  rw [encode_instr, ← hinstr]
  rfl

/-- Settles O25: the encoder inverts the effective opcode, so it finds the base opcode again. -/
theorem encodeOfDecodeIsCanonical : Obligations.EncodeOfDecodeIsCanonical := by
  intro p e
  have hrange := sint_encodeWord0 p (effOf (baseOf e.word0) p)
  refine ⟨encodeWord0 p (effOf (baseOf e.word0) p), ?_, by omega, by omega, ?_⟩
  · rw [Encoded.instr, encode_instr, Operation.number_ofNumber]
  · exact (baseOf_encodeWord0_eq_iff ..).2 rfl

/-- Settles O21: HALT is number 0, and the one base opcode of an operation is that of the encoder's word 0. -/
theorem whichBaseOpcodesResolve : Obligations.WhichBaseOpcodesResolve := by
  refine ⟨fun e p => ?_, fun p o => ⟨baseOf (encodeWord0 p o.number), ?_, fun b hb => ?_⟩⟩
  · have hbase := baseOf_val e.word0
    have hzero : ((Operation.halt.number.val : Nat) : Int) = 0 := rfl
    rw [Encoded.operation_instr, Operation.ofNumber_eq_iff, effOf_eq_iff]
    omega
  · rw [effOf_baseOf_encodeWord0, Operation.ofNumber_number]
  · exact ((baseOf_encodeWord0_eq_iff ..).2 (Operation.ofNumber_eq_iff.1 hb)).symm

/-- Settles O19: the product is the wrapped one, and the base opcode is word 0 modulo 7. -/
theorem scramblerFormula : Obligations.ScramblerFormula := by
  intro word0 rx ry
  have hbase := baseOf_val word0
  have hresolve := resolve_val word0 rx ry
  have hproduct : (sint (scrambleProduct rx ry) - sint rx * sint ry) % 2 ^ 32 = 0 :=
    Machine.sint_wrap32_sub_mod _
  refine ⟨sint (scrambleProduct rx ry), BitVec.le_toInt _, BitVec.toInt_lt, ?_, ?_, ?_⟩ <;> omega

/-- With an RY value of 1 the product is the RX value. -/
theorem scrambleProduct_one (rx : Word) : scrambleProduct rx 1#32 = rx := by
  have hone : sint 1#32 = 1 := by decide
  rw [scrambleProduct, hone, mul_one, Machine.wrap32_sint]

/-- Some product takes a base opcode to any number: their difference. -/
theorem exists_effOf_eq (b n : OpNum) : ∃ p : Word, effOf b p = n := by
  have hsint : sint (wrap32 ((n.val : Int) - b.val)) = (n.val : Int) - b.val :=
    sint_wrap32_of_range (by omega) (by omega)
  exact ⟨_, (effOf_eq_iff b n _).2 (by rw [hsint]; omega)⟩

/-- Settles O22: with 1 in RY, the RX value is the product that takes word 0 to the operation. -/
theorem anyWordRunsAsAnyOperation : Obligations.AnyWordRunsAsAnyOperation := by
  intro word0 op1 op2 result o
  obtain ⟨rx, hrx⟩ := exists_effOf_eq (baseOf word0) o.number
  refine ⟨rx, 1#32, ?_⟩
  rw [scrambleProduct_one, Encoded.instr, hrx, Operation.ofNumber_number]

/-- Settles O26, by running the decoder on the words listed. -/
theorem exampleWordsDecode : Obligations.ExampleWordsDecode := by
  unfold Obligations.ExampleWordsDecode
  decide

end Sys2Proof
end

section
/-! The step from the start check on (40_fetch_decode_dispatch.md R80 to R82; 10_state.md R31): what it answers in every
kind of start state, the counterpart of `step_next`. -/

namespace Sys2Proof.Machine

variable {s t : State}

/-- The start check comes before everything else, in a step and in a run alike. -/
theorem step_of_startRefusal {r : Refusal} (h : s.startRefusal = some r) : step s = .refused r := by
  simp only [step, State.plan, h]

theorem runSteps_of_startRefusal {r : Refusal} (h : s.startRefusal = some r) (n : Nat) :
    runSteps n s = .refused r := by
  rw [runSteps, h]

theorem State.startRefusal_malformed (h : s.progLen % 4 ≠ 0 ∨ 2147483644 < s.progLen) :
    s.startRefusal = some .malformedProgram :=
  if_pos fun ⟨hmul, hmax⟩ => h.elim (absurd hmul) (not_lt.2 hmax)

theorem State.startRefusal_invalid (hmul : s.progLen % 4 = 0) (hmax : s.progLen ≤ 2147483644)
    (h : sint s.pc < 0 ∨ sint s.pc % 4 ≠ 0 ∨ (s.progLen : Int) < sint s.pc) :
    s.startRefusal = some .invalidState := by
  have hlen : ProgLenOk s.progLen := ⟨hmul, hmax⟩
  have hvalid : ¬ s.Valid := by
    rintro ⟨hnonneg, haligned, hle⟩
    rcases h with h | h | h <;> omega
  rw [State.startRefusal, if_neg (not_not.2 hlen), if_pos hvalid]

/-- Settles O36: the start check refuses, and a step answers its refusal. -/
theorem malformedStartsAreRefused : Obligations.MalformedStartsAreRefused := fun _ =>
  ⟨fun h => step_of_startRefusal (State.startRefusal_malformed h),
    fun hmul hmax h => step_of_startRefusal (State.startRefusal_invalid hmul hmax h)⟩

/-- Settles O51: the start check refuses, and so does a run of any number of steps, `execute` among them. -/
theorem runsFromMalformedStartsAreRefused : Obligations.RunsFromMalformedStartsAreRefused := by
  refine fun s n => ⟨fun h => ?_, fun hmul hmax h => ?_⟩
  · have hrefused := runSteps_of_startRefusal (State.startRefusal_malformed h)
    exact ⟨hrefused n, hrefused _⟩
  · have hrefused := runSteps_of_startRefusal (State.startRefusal_invalid hmul hmax h)
    exact ⟨hrefused n, hrefused _⟩

/-- Settles O35: the start check passes, and STATE is looked at next. -/
theorem terminalStatesHaveNoStep : Obligations.TerminalStatesHaveNoStep := by
  intro s st hlen hvalid hstate
  have hcheck : s.startRefusal = none := State.startRefusal_eq_none.2 ⟨hlen, hvalid⟩
  have hstatus : s.state.status = some st := EngineState.status_eq_some.2 hstate
  simp only [step, State.plan, hcheck, hstatus]

/-- A pc that is not negative is the same number read without sign. -/
theorem State.Valid.sint_pc (h : s.Valid) : sint s.pc = (s.pc.toNat : Int) :=
  BitVec.toInt_eq_toNat_of_msb (BitVec.msb_eq_toInt.trans (decide_eq_false (not_lt.2 h.1)))

theorem Startable.startRefusal (hs : Startable s) : s.startRefusal = none := by
  obtain ⟨hlen, hvalid, -⟩ := hs
  exact State.startRefusal_eq_none.2 ⟨hlen, hvalid⟩

/-- Below L there is room for a whole instruction: L and pc are multiples of the stride (20_memory.md R42). -/
theorem Startable.pc_add_four_le (hs : Startable s) (hlt : sint s.pc < (s.progLen : Int)) :
    s.pc.toNat + 4 ≤ s.progLen := by
  obtain ⟨⟨hmul, -⟩, hvalid, -⟩ := hs
  have hmul : s.progLen % 4 = 0 := hmul
  have hpc := hvalid.sint_pc
  obtain ⟨-, haligned, -⟩ := hvalid
  omega

/-- The fetch, where there is room for a whole instruction. -/
theorem State.fetch_eq_some {e : Encoded} (hroom : s.pc.toNat + 4 ≤ s.progLen) (hwords : WordsAtPc s e) :
    s.fetch = some e := by
  obtain ⟨hword0, hop1, hop2, hresult⟩ := hwords
  have hread : s.memRead s.pc.toNat Config.stride = some [e.word0, e.op1, e.op2, e.result] := by
    rw [State.memRead, if_pos hroom]
    simp only [Memory.readWords, Nat.add_assoc, Nat.reduceAdd, hword0, hop1, hop2, hresult]
  rw [State.fetch, hread]

/-- Below L a step puts out its record and runs the instruction of the four words at pc. -/
theorem step_execute {e : Encoded} (hs : Startable s) (hlt : sint s.pc < (s.progLen : Int))
    (hwords : WordsAtPc s e) : step s = exec (e.instr s.product) (s.emit (s.preRecord e)) := by
  have hfetch := State.fetch_eq_some (hs.pc_add_four_le hlt) hwords
  have hcheck := hs.startRefusal
  obtain ⟨-, -, hrunning⟩ := hs
  have hstatus : s.state.status = none := EngineState.status_eq_none.2 hrunning
  simp only [step, State.plan, hcheck, hstatus, not_le.2 hlt, if_false, hfetch]

/-- The record of a step, field by field: it shows the scrambler's own answer as the effective opcode. -/
theorem State.preRecord_eq (s : State) (e : Encoded) :
    s.preRecord e = .pre s.pc (baseOf e.word0) (resolve e.word0 s.rxValue s.ryValue)
      (decide (baseOf e.word0 ≠ resolve e.word0 s.rxValue s.ryValue)) (s.operandValues (e.instr s.product))
      s.snapshot := by
  have hdiffers : (baseOf e.word0 != resolve e.word0 s.rxValue s.ryValue) =
      decide (baseOf e.word0 ≠ resolve e.word0 s.rxValue s.ryValue) := by rw [decide_not, bne, beq_eq_decide]
  rw [← hdiffers]
  rfl

/-- Settles O27: the step's instruction and record are those of the four words at pc. -/
theorem stepRunsTheDecodedInstruction : Obligations.StepRunsTheDecodedInstruction := by
  intro s e hs hlt hwords
  refine ⟨e.instr s.product, rfl, ?_⟩
  rw [step_execute hs hlt hwords, State.preRecord_eq]

/-- Settles O37: below L the fetched instruction answers a next state, and at L the run ends with Ok. -/
theorem everyStartableStateSteps : Obligations.EveryStartableStateSteps := by
  intro s hs
  by_cases hlt : sint s.pc < (s.progLen : Int)
  · have hwords : WordsAtPc s ⟨_, _, _, _⟩ := ⟨rfl, rfl, rfl, rfl⟩
    rw [step_execute hs hlt hwords]
    exact exists_exec_next _ _
  · exact ⟨_, step_exhausted hs (not_lt.1 hlt)⟩

end Sys2Proof.Machine
end

section
/-! The machine's invariant along a step (10_state.md R31) and at reset (R30; 70_reset_and_hazards.md R171). -/

namespace Sys2Proof.Machine

variable {s t : State}

/-- A step leaves the program as it is (20_memory.md R43). -/
theorem step_prog (h : step s = .next t) : t.prog = s.prog ∧ t.progLen = s.progLen := by
  obtain ⟨-, ⟨-, rfl⟩ | ⟨-, e, -, hexec⟩⟩ := step_next h
  · exact ⟨rfl, rfl⟩
  · exact exec_prog (s := s.emit (s.preRecord e)) hexec

theorem step_programKept (h : step s = .next t) : ProgramKept s t :=
  ⟨(step_prog h).2, fun a => congrArg (Memory.read · a) (step_prog h).1⟩

/-- A step after which the machine still runs started below L, for at L the run ends with Ok. -/
theorem sint_pc_lt_of_step_running (h : step s = .next t) (hrun : t.state = .running) :
    sint s.pc < (s.progLen : Int) := by
  obtain ⟨-, ⟨-, rfl⟩ | ⟨hlt, -⟩⟩ := step_next h
  · nomatch hrun
  · exact hlt

/-- A step leads to a valid state: pc stays where it was, or goes on by the stride to L at most. -/
theorem step_keeps_valid (h : step s = .next t) : t.Valid := by
  obtain ⟨-, hlen⟩ := step_prog h
  obtain ⟨⟨hmul, -⟩, ⟨hnonneg, haligned, hle⟩, -⟩ := (step_next h).1
  have hmul : s.progLen % 4 = 0 := hmul
  unfold State.Valid
  rw [hlen]
  rcases step_pc h with ⟨hrun, hpc⟩ | ⟨-, hpc⟩
  · have hlt := sint_pc_lt_of_step_running h hrun
    exact ⟨by omega, by omega, by omega⟩
  · rw [hpc]
    exact ⟨hnonneg, haligned, hle⟩

/-- Settles O44: the program is kept, and `step_keeps_valid` is the rest. -/
theorem stepKeepsValidity : Obligations.StepKeepsValidity := by
  intro s t hinv h
  obtain ⟨hlen, -, hwf, hbelow⟩ := hinv
  obtain ⟨hprog, hprogLen⟩ := step_prog h
  refine ⟨by rwa [hprogLen], step_keeps_valid h, by rwa [hprog], ?_⟩
  rwa [hprog, hprogLen]

/-- Settles O45: at reset pc and L are 0, and nothing is listed. -/
theorem resetStateIsValid : Obligations.ResetStateIsValid :=
  ⟨by decide, by decide, State.reset_prog_wf, nofun⟩

/-- After the reset input pc is 0, which is valid for every L. -/
theorem State.applyReset_startable (hlen : ProgLenOk s.progLen) : Startable s.applyReset :=
  ⟨hlen, ⟨le_rfl, rfl, Int.natCast_nonneg _⟩, rfl⟩

/-- Settles O39: the reset input leaves the program fields alone. -/
theorem resetKeepsTheProgramAndIsStartable : Obligations.ResetKeepsTheProgramAndIsStartable :=
  fun _ => ⟨⟨rfl, fun _ => rfl⟩, State.applyReset_startable⟩

end Sys2Proof.Machine
end

section
/-! The trace along a step (60_exceptions.md R154): the pre-execution record of an instruction, and the final record
of a run's end. -/

namespace Sys2Proof.Machine

variable {s t : State}

/-- An instruction that does not complete does nothing but enter its own terminal condition. -/
theorem exec_of_not_completes {i : Instr} (h : ¬ Completes i s) :
    ∃ st : Status, exec i s = .next (s.endRun st) ∧ (st = .halted ↔ i.operation = .halt) ∧
      (st = .divisionByZero ↔ i.operation = .div ∨ i.operation = .mod) ∧ st ≠ .ok := by
  cases i with
  | halt op1 op2 result =>
    exact ⟨.halted, exec_halt op1 op2 result s, iff_of_true rfl rfl, iff_of_false nofun nofun, nofun⟩
  | add _ _ _ | sub _ _ _ | mul _ _ _ | lds _ _ _ => exact absurd trivial h
  | div op1 op2 result =>
    have hzero : sint (s.slot (idx op2)) = 0 := not_not.1 h
    exact ⟨.divisionByZero, (exec_zero_divisor hzero).1, iff_of_false nofun nofun, iff_of_true rfl (.inl rfl), nofun⟩
  | mod op1 op2 result =>
    have hzero : sint (s.slot (idx op2)) = 0 := not_not.1 h
    exact ⟨.divisionByZero, (exec_zero_divisor hzero).2, iff_of_false nofun nofun, iff_of_true rfl (.inr rfl), nofun⟩

/-- Settles O32: entering a terminal condition writes nothing but STATE and the trace. -/
theorem nonCompletionStopsInPlace : Obligations.NonCompletionStopsInPlace := by
  intro i s h
  obtain ⟨st, hexec, hkinds⟩ := exec_of_not_completes h
  exact ⟨_, st, hexec, s.endRun_spec st, hkinds⟩

/-- An instruction that leaves the machine running puts out nothing of its own; one that stops it, the final record. -/
theorem exec_trace {i : Instr} (hs : s.state = .running) (h : exec i s = .next t) :
    (t.state = .running ∧ t.trace = s.trace) ∨
      ∃ st : Status, st ≠ .ok ∧ t.state = st.engineState ∧ t.trace = s.trace ++ [TraceRecord.final st t.snapshot] := by
  by_cases hc : Completes i s
  · have hrun := (completes_iff_running hs h).1 hc
    rcases exec_next h with ⟨-, st, rfl⟩ | ⟨-, f, op1, op2, result, rfl⟩ | ⟨op1, op2, result, -, rfl⟩
    · cases st <;> nomatch hrun
    · exact .inl ⟨hrun, rfl⟩
    · exact .inl ⟨hrun, rfl⟩
  · obtain ⟨st, hexec, -, -, hst⟩ := exec_of_not_completes hc
    obtain rfl := Host.Outcome.next.inj (hexec.symm.trans h)
    exact .inr ⟨st, hst, rfl, rfl⟩

/-- What a step puts out: a pre-execution record while the machine runs on; where it stops, the final record, after the
record of the stopping instruction unless the program was exhausted. -/
theorem step_trace (h : step s = .next t) :
    (t.state = .running ∧ ∃ r : TraceRecord, r.isPre = true ∧ t.trace = s.trace ++ [r]) ∨
      ∃ (st : Status) (records : List TraceRecord), t.state = st.engineState ∧
        t.trace = s.trace ++ records ++ [TraceRecord.final st t.snapshot] ∧
        (∀ r ∈ records, r.isPre = true) ∧ records.length = if st = .ok then 0 else 1 := by
  obtain ⟨⟨-, -, hrunning⟩, ⟨-, rfl⟩ | ⟨-, e, -, hexec⟩⟩ := step_next h
  · exact .inr ⟨.ok, [], rfl, by simp, nofun, rfl⟩
  · rcases exec_trace (s := s.emit (s.preRecord e)) hrunning hexec with ⟨hrun, htrace⟩ | ⟨st, hst, hstate, htrace⟩
    · exact .inl ⟨hrun, _, rfl, htrace⟩
    · refine .inr ⟨st, [s.preRecord e], hstate, htrace, ?_, (if_neg hst).symm⟩
      intro r hr
      rw [List.mem_singleton.1 hr]
      rfl

/-- The trace's form of a machine that runs, and of one that has stopped. -/
theorem traceInv_of_running (hs : s.state = .running) : TraceInv s ↔ ∀ r ∈ s.trace, r.isPre = true := by
  rw [TraceInv, EngineState.status_eq_none.2 hs]

theorem traceInv_of_stopped {st : Status} (hs : s.state = st.engineState) :
    TraceInv s ↔
      ∃ rs : List TraceRecord, s.trace = rs ++ [TraceRecord.final st s.snapshot] ∧ ∀ r ∈ rs, r.isPre = true := by
  rw [TraceInv, EngineState.status_eq_some.2 hs]

/-- Settles O46: a step starts from a running machine, and appends to pre-execution records what `step_trace` says. -/
theorem stepKeepsTraceForm : Obligations.StepKeepsTraceForm := by
  intro s t hinv h
  obtain ⟨⟨-, -, hrunning⟩, -⟩ := step_next h
  have hpre := (traceInv_of_running hrunning).1 hinv
  rcases step_trace h with ⟨hrun, r, hr, htrace⟩ | ⟨st, records, hstate, htrace, hrecords, -⟩
  · rw [traceInv_of_running hrun, htrace]
    exact List.forall_mem_append.2 ⟨hpre, List.forall_mem_singleton.2 hr⟩
  · rw [traceInv_of_stopped hstate]
    exact ⟨s.trace ++ records, htrace, List.forall_mem_append.2 ⟨hpre, hrecords⟩⟩

/-- Settles O47: the machine runs, and its trace is empty. -/
theorem resetTraceForm : Obligations.ResetTraceForm :=
  ⟨(traceInv_of_running rfl).2 nofun, fun _ => (traceInv_of_running rfl).2 nofun⟩

end Sys2Proof.Machine
end

section
/-! A run (40_fetch_decode_dispatch.md R93, R96): it is its first step and then the run from there, so what holds of a
stopping step and is kept by a step before a run holds of every run. -/

namespace Sys2Proof.Machine

variable {s t : State}

/-- Where the machine runs on, a run may start from the next state. -/
theorem step_startable (h : step s = .next t) (hrun : t.state = .running) : Startable t := by
  obtain ⟨hlen, -⟩ := (step_next h).1
  exact ⟨by rwa [(step_prog h).2], step_keeps_valid h, hrun⟩

/-- pc along a step, as the natural number the number of steps is counted with. -/
theorem step_pc_toNat (h : step s = .next t) (hrun : t.state = .running) : t.pc.toNat = s.pc.toNat + 4 := by
  obtain ⟨-, hvalid, -⟩ := (step_next h).1
  have hs := hvalid.sint_pc
  have ht := (step_keeps_valid h).sint_pc
  rcases step_pc h with ⟨-, hpc⟩ | ⟨hstop, -⟩
  · omega
  · exact absurd hrun hstop

theorem step_pc_toNat_of_stop (h : step s = .next t) (hstop : t.state ≠ .running) : t.pc.toNat = s.pc.toNat := by
  rcases step_pc h with ⟨hrun, -⟩ | ⟨-, hpc⟩
  · exact absurd hrun hstop
  · rw [hpc]

/-- The steps from a running machine are its first step and then the steps from there. -/
theorem stepWhileRunning_succ (h : step s = .next t) (n : Nat) :
    stepWhileRunning (n + 1) s = stepWhileRunning n t := by
  obtain ⟨⟨-, -, hrunning⟩, -⟩ := step_next h
  rw [stepWhileRunning, if_pos hrunning, h]

theorem stepWhileRunning_of_stopped (hs : s.state ≠ .running) (n : Nat) : stepWhileRunning n s = .next s := by
  cases n with
  | zero => rfl
  | succ n => exact if_neg hs

/-- A run that stops at its first step answers what that step answers. -/
theorem execute_of_stop (h : step s = .next t) (hstop : t.state ≠ .running) : execute s = .next t := by
  rw [execute, runSteps_checked (step_next h).1.startRefusal, stepWhileRunning_succ h,
    stepWhileRunning_of_stopped hstop]

/-- Settles O50: the step lessens by one the number of steps a run is given. -/
theorem runsCompose : Obligations.RunsCompose := by
  intro s t h hrun
  have ht := step_startable h hrun
  have hpc := step_pc_toNat h hrun
  obtain ⟨hs, -⟩ := step_next h
  have hroom := hs.pc_add_four_le (sint_pc_lt_of_step_running h hrun)
  have hsteps : (s.progLen - s.pc.toNat) / 4 = (t.progLen - t.pc.toNat) / 4 + 1 := by
    rw [(step_prog h).2]
    omega
  rw [execute, execute, runSteps_checked hs.startRefusal, runSteps_checked ht.startRefusal,
    stepWhileRunning_succ h, hsteps]

/-- Induction along a run: a relation of start and end that holds of a stopping step, and of a step followed by a run it
holds of, holds of every run; and every run has an end, since L - pc falls with every step. -/
theorem execute_induction {P : State → State → Prop}
    (stop : ∀ s t, step s = .next t → t.state ≠ .running → P s t)
    (go : ∀ s t u, step s = .next t → t.state = .running → P t u → P s u)
    (s : State) (hs : Startable s) : ∃ t, execute s = .next t ∧ P s t := by
  obtain ⟨t, h⟩ := everyStartableStateSteps s hs
  by_cases hrun : t.state = .running
  · have hfalls : t.progLen - t.pc.toNat < s.progLen - s.pc.toNat := by
      have hroom := hs.pc_add_four_le (sint_pc_lt_of_step_running h hrun)
      rw [(step_prog h).2, step_pc_toNat h hrun]
      omega
    obtain ⟨u, hexecute, hu⟩ := execute_induction stop go t (step_startable h hrun)
    exact ⟨u, (runsCompose s t h hrun).trans hexecute, go s t u h hrun hu⟩
  · exact ⟨t, execute_of_stop h hrun, stop s t h hrun⟩
termination_by s.progLen - s.pc.toNat

/-- What a run comes to: a stopped machine, pc no lower, RXI and the program as they were. -/
def RunFrame (s t : State) : Prop :=
  t.state ≠ .running ∧ s.pc.toNat ≤ t.pc.toNat ∧ t.rxi = s.rxi ∧ ProgramKept s t

theorem runFrame_of_stop (h : step s = .next t) (hstop : t.state ≠ .running) : RunFrame s t :=
  ⟨hstop, (step_pc_toNat_of_stop h hstop).ge, step_rxi h, step_programKept h⟩

theorem runFrame_of_step {u : State} (h : step s = .next t) (hrun : t.state = .running) (hu : RunFrame t u) :
    RunFrame s u := by
  have hpc := step_pc_toNat h hrun
  obtain ⟨hlen, hread⟩ := step_programKept h
  obtain ⟨hstop, hpcu, hrxi, hlenu, hreadu⟩ := hu
  exact ⟨hstop, by omega, hrxi.trans (step_rxi h), hlenu.trans hlen, fun a => (hreadu a).trans (hread a)⟩

/-- Settles O48: `execute` is the run of that many steps. -/
theorem everyRunEnds : Obligations.EveryRunEnds :=
  execute_induction (P := RunFrame) (fun _ _ => runFrame_of_stop) (fun _ _ _ => runFrame_of_step)

/-- What a run puts out: a pre-execution record for every advance of pc, and one for an instruction that stops it; then
the final record. pc never falls, so the advance is a number of strides. -/
def RunTrace (s t : State) : Prop :=
  s.pc.toNat ≤ t.pc.toNat ∧ ∃ (st : Status) (records : List TraceRecord), t.state = st.engineState ∧
    t.trace = s.trace ++ records ++ [TraceRecord.final st t.snapshot] ∧ (∀ r ∈ records, r.isPre = true) ∧
    records.length = (t.pc.toNat - s.pc.toNat) / 4 + if st = .ok then 0 else 1

theorem runTrace_of_stop (h : step s = .next t) (hstop : t.state ≠ .running) : RunTrace s t := by
  have hpc := step_pc_toNat_of_stop h hstop
  rcases step_trace h with ⟨hrun, -⟩ | ⟨st, records, hstate, htrace, hpre, hlength⟩
  · exact absurd hrun hstop
  · exact ⟨hpc.ge, st, records, hstate, htrace, hpre, by rw [hlength, hpc, Nat.sub_self, Nat.zero_div, Nat.zero_add]⟩

theorem runTrace_of_step {u : State} (h : step s = .next t) (hrun : t.state = .running) (hu : RunTrace t u) :
    RunTrace s u := by
  have hpc := step_pc_toNat h hrun
  obtain ⟨hpcu, st, records, hstate, htraceu, hpre, hlength⟩ := hu
  rcases step_trace h with ⟨-, r, hr, htrace⟩ | ⟨st', -, hstop, -⟩
  · refine ⟨by omega, st, r :: records, hstate, by simp [htraceu, htrace], List.forall_mem_cons.2 ⟨hr, hpre⟩, ?_⟩
    rw [List.length_cons, hlength]
    omega
  · rw [hrun] at hstop
    cases st' <;> nomatch hstop

/-- Settles O49: every step of a run adds its one record. -/
theorem traceOfARun : Obligations.TraceOfARun := by
  intro s hs
  obtain ⟨t, hexecute, -, st, records, hrun⟩ :=
    execute_induction (P := RunTrace) (fun _ _ => runTrace_of_stop) (fun _ _ _ => runTrace_of_step) s hs
  exact ⟨t, st, records, hexecute, hrun⟩

end Sys2Proof.Machine
end

section
/-! What the arithmetic instructions leave in their destination slot, in particular cases (41_arithmetic.md R100, R106,
R108). -/

namespace Sys2Proof.Machine

/-- Wrapping the exact sum, difference or product of two signed values is arithmetic on the words themselves. -/
theorem wrap32_sint_add (a b : Word) : wrap32 (sint a + sint b) = a + b := by
  rw [wrap32, BitVec.ofInt_add, BitVec.ofInt_toInt, BitVec.ofInt_toInt]

theorem wrap32_sint_sub (a b : Word) : wrap32 (sint a - sint b) = a - b := by
  rw [wrap32, Int.sub_eq_add_neg, BitVec.ofInt_add, BitVec.ofInt_neg, BitVec.ofInt_toInt, BitVec.ofInt_toInt,
    BitVec.sub_eq_add_neg]

theorem wrap32_sint_mul (a b : Word) : wrap32 (sint a * sint b) = a * b := by
  rw [wrap32, BitVec.ofInt_mul, BitVec.ofInt_toInt, BitVec.ofInt_toInt]

theorem State.arith_slot (s : State) (f : Int → Int → Int) (op1 op2 result : Word) :
    (s.arith f op1 op2 result).slot (idx result) =
      wrap32 (f (sint (s.slot (idx op1))) (sint (s.slot (idx op2)))) :=
  (s.arith_spec f op1 op2 result).1

/-- Settles O10: the destination holds the sum, difference or product of the words, whose unsigned reading the library
knows. -/
theorem signedAndUnsignedArithmeticAgree : Obligations.SignedAndUnsignedArithmeticAgree := by
  intro s op1 op2 result
  refine ⟨⟨_, rfl, rfl, ?_⟩, ⟨_, rfl, rfl, ?_⟩, ⟨_, rfl, rfl, ?_⟩⟩ <;> rw [State.arith_slot]
  · rw [wrap32_sint_add, BitVec.toNat_add]
  · rw [wrap32_sint_sub, BitVec.toNat_sub, Nat.add_comm]
  · rw [wrap32_sint_mul, BitVec.toNat_mul]

theorem sint_ne_zero {w : Word} (h : w ≠ 0#32) : sint w ≠ 0 :=
  fun hz => h (BitVec.toInt_inj.1 hz)

theorem tdiv_self {a : Int} (h : a ≠ 0) : tdiv a a = 1 := Int.tdiv_self h

theorem trem_self (a : Int) : trem a a = 0 := by
  rw [trem_eq_tmod, Int.tmod_self]

/-- Settles O11: both sources are the one slot, read before it is written. -/
theorem oneSlotAsAllOperands : Obligations.OneSlotAsAllOperands := by
  intro s u v w hu hv
  have hslot (f : Int → Int → Int) : (s.arith f u v w).slot (idx w) =
      wrap32 (f (sint (s.slot (idx w))) (sint (s.slot (idx w)))) := by rw [State.arith_slot, hu, hv]
  refine ⟨⟨_, rfl, ?_⟩, ⟨_, rfl, ?_⟩, ⟨_, rfl, ?_⟩, fun h => ?_, fun h => ?_⟩
  · rw [hslot, ← two_mul]
    exact sint_wrap32_sub_mod _
  · rw [hslot, Int.sub_self]
    rfl
  · rw [hslot, ← sq]
    exact sint_wrap32_sub_mod _
  · refine ⟨_, exec_div_nonzero (by rw [hv]; exact sint_ne_zero h), ?_⟩
    rw [hslot, tdiv_self (sint_ne_zero h)]
    rfl
  · refine ⟨_, exec_mod_nonzero (by rw [hv]; exact sint_ne_zero h), ?_⟩
    rw [hslot, trem_self]
    rfl

/-- Settles O9: the quotient 2^31 wraps, and the remainder is 0. -/
theorem overflowingQuotientWraps : Obligations.OverflowingQuotientWraps := by
  intro s op1 op2 result ha hb
  have hnonzero : sint (s.slot (idx op2)) ≠ 0 := by rw [hb]; decide
  refine ⟨⟨_, exec_div_nonzero hnonzero, ?_, s.arith_frame ..⟩, ⟨_, exec_mod_nonzero hnonzero, ?_, s.arith_frame ..⟩⟩
  · rw [State.arith_slot, ha, hb]
    decide
  · rw [State.arith_slot, ha, hb]
    decide

/-- Settles O28: the five arithmetic operations record their sources alike. -/
theorem recordedOperandValues : Obligations.RecordedOperandValues := by
  refine fun s op1 op2 result => ⟨fun o ho => ?_, rfl, rfl⟩
  rcases ho with rfl | rfl | rfl | rfl | rfl <;> rfl

end Sys2Proof.Machine
end

section
/-! The RX and RY values after an instruction (41_arithmetic.md R110, 42_lds.md R125): they are read afresh, so they
follow the slots. -/

namespace Sys2Proof.Machine

variable {s t : State}

/-- Where one slot at most has changed, a slot holds the new contents if it is that one. -/
theorem slot_eq_ite {dest : Slot} (hother : ∀ k, k ≠ dest → t.slot k = s.slot k) (k : Slot) :
    t.slot k = if dest = k then t.slot dest else s.slot k := by
  by_cases hk : dest = k
  · rw [if_pos hk, hk]
  · rw [if_neg hk, hother k (Ne.symm hk)]

/-- Settles O14: the destination holds the literal, no other slot changes, and RY points at op2's slot. -/
theorem indexValuesAfterLds : Obligations.IndexValuesAfterLds := by
  intro s t op1 op2 result h
  obtain ⟨hrxi, hryi⟩ : t.rxi = s.rxi ∧ t.ryi = idx op2 := by cases h; exact ⟨rfl, rfl⟩
  have hslot (k : Slot) : t.slot k = if k = idx result then op1 else s.slot k := by cases h; exact s.load_slot ..
  rw [State.rxValue, State.ryValue, hrxi, hryi, hslot, hslot]
  simp only [eq_comm, State.rxValue, and_self]

/-- What an arithmetic instruction can do: a division may end the run, and all else is an arithmetic result. -/
theorem exec_arithmetic {i : Instr} {op1 op2 result : Word}
    (hi : i = .add op1 op2 result ∨ i = .sub op1 op2 result ∨ i = .mul op1 op2 result ∨ i = .div op1 op2 result ∨
      i = .mod op1 op2 result) (h : exec i s = .next t) :
    (∃ st : Status, t = s.endRun st) ∨ ∃ f, t = s.arith f op1 op2 result := by
  have hdivide (f : Int → Int → Int) : (∃ st : Status, s.divide f op1 op2 result = s.endRun st) ∨
      ∃ g, s.divide f op1 op2 result = s.arith g op1 op2 result := by
    by_cases hz : sint (s.slot (idx op2)) = 0
    · exact .inl ⟨_, State.divide_zero hz⟩
    · exact .inr ⟨_, State.divide_nonzero hz⟩
  rcases hi with rfl | rfl | rfl | rfl | rfl <;> obtain rfl := Host.Outcome.next.inj h
  · exact .inr ⟨_, rfl⟩
  · exact .inr ⟨_, rfl⟩
  · exact .inr ⟨_, rfl⟩
  · exact hdivide _
  · exact hdivide _

/-- It writes no slot but its destination, and no index register. -/
theorem exec_arithmetic_frame {i : Instr} {op1 op2 result : Word}
    (hi : i = .add op1 op2 result ∨ i = .sub op1 op2 result ∨ i = .mul op1 op2 result ∨ i = .div op1 op2 result ∨
      i = .mod op1 op2 result) (h : exec i s = .next t) :
    t.rxi = s.rxi ∧ t.ryi = s.ryi ∧ ∀ k, k ≠ idx result → t.slot k = s.slot k := by
  rcases exec_arithmetic hi h with ⟨st, rfl⟩ | ⟨f, rfl⟩
  · exact ⟨rfl, rfl, fun _ _ => rfl⟩
  · obtain ⟨hslots, hrxi, hryi, -⟩ := s.arith_frame f op1 op2 result
    exact ⟨hrxi, hryi, hslots⟩

/-- Settles O15: the index registers stay, and the destination is the one slot that can change. -/
theorem indexValuesAfterArithmetic : Obligations.IndexValuesAfterArithmetic := by
  intro s t op1 op2 result i hi h
  obtain ⟨hrxi, hryi, hother⟩ := exec_arithmetic_frame hi h
  refine ⟨hrxi, hryi, ?_, ?_⟩
  · rw [State.rxValue, hrxi]
    exact slot_eq_ite hother s.rxi
  · rw [State.ryValue, hryi]
    exact slot_eq_ite hother s.ryi

end Sys2Proof.Machine
end

section
/-! The program store read back (20_memory.md R40, R42): after the load of a program, and after words placed at an
address. -/

namespace Sys2Proof.Machine

/-- Consecutive words of a store are a list, if each stands at its address. -/
theorem Memory.readWords_eq {m : Memory} {a : Nat} {ws : List Word}
    (h : ∀ k (hk : k < ws.length), m.read (a + k) = ws[k]) : m.readWords a ws.length = ws := by
  induction ws generalizing a with
  | nil => rfl
  | cons w ws ih =>
    rw [List.length_cons, Memory.readWords]
    refine congrArg₂ List.cons (h 0 (Nat.zero_lt_succ _)) (ih fun k hk => ?_)
    rw [Nat.add_assoc, Nat.add_comm 1 k]
    exact h (k + 1) (Nat.succ_lt_succ hk)

/-- A loaded word stands at its address; a word 0 is not listed, and reads as 0. -/
theorem Memory.read_ofWords (a : Nat) (ws : List Word) (k : Nat) (hk : k < ws.length) :
    (Memory.ofWords a ws).read (a + k) = ws[k] := by
  induction ws generalizing a k with
  | nil => nomatch hk
  | cons w ws ih =>
    have hbelow : (Memory.ofWords (a + 1) ws).read a = 0#32 :=
      Memory.read_below (Memory.wfFrom_ofWords (a + 1) ws) (Nat.lt_succ_self a)
    cases k with
    | zero => by_cases hw : w = 0#32 <;> simp [Memory.ofWords, Memory.read, hw, hbelow]
    | succ k =>
      have hrest := ih (a + 1) k (Nat.lt_of_succ_lt_succ hk)
      rw [Nat.add_assoc, Nat.add_comm 1 k] at hrest
      by_cases hw : w = 0#32 <;> simp [Memory.ofWords, Memory.read, hw, hrest]

theorem State.loadProgram_read (s : State) {ws : List Word} {k : Nat} (hk : k < ws.length) :
    (s.loadProgram ws).prog.read k = ws[k] := by
  have hread := Memory.read_ofWords 0 ws k hk
  rwa [Nat.zero_add] at hread

/-- Settles O41: every word of a piece of the program stands at its address. -/
theorem loadedProgramReadsBack : Obligations.LoadedProgramReadsBack := by
  refine fun s ws => ⟨Memory.wfFrom_ofWords 0 ws, fun k w hw => ?_, fun a n => ?_⟩
  · obtain ⟨hk, rfl⟩ := List.getElem?_eq_some_iff.1 hw
    exact s.loadProgram_read hk
  · refine ite_congr rfl (fun hroom => congrArg some ?_) fun _ => rfl
    have hlength : ((ws.drop a).take n).length = n := by
      rw [List.length_take, List.length_drop]
      omega
    have hread : (s.loadProgram ws).prog.readWords a ((ws.drop a).take n).length = (ws.drop a).take n := by
      refine Memory.readWords_eq fun k hk => ?_
      rw [List.getElem_take, List.getElem_drop]
      exact s.loadProgram_read _
    rwa [hlength] at hread

/-- Words written from an address on leave the words below it. -/
theorem Memory.read_writeWords_below {m : Memory} (hm : m.wf = true) {a b : Nat} (ws : List Word) (h : b < a) :
    (m.writeWords a ws).read b = m.read b := by
  induction ws generalizing m a with
  | nil => rfl
  | cons w ws ih =>
    rw [Memory.writeWords, ih (Memory.wf_write a w hm) (by omega), Memory.read_write w b hm, if_neg (by omega)]

/-- A written word stands at its address. -/
theorem Memory.read_writeWords {m : Memory} (hm : m.wf = true) (a : Nat) (ws : List Word) (k : Nat)
    (hk : k < ws.length) : (m.writeWords a ws).read (a + k) = ws[k] := by
  induction ws generalizing m a k with
  | nil => nomatch hk
  | cons w ws ih =>
    have hwf := Memory.wf_write a w hm
    rw [Memory.writeWords]
    cases k with
    | zero =>
      rw [Memory.read_writeWords_below hwf ws (by omega), Memory.read_write w _ hm, if_pos (Nat.add_zero a),
        List.getElem_cons_zero]
    | succ k =>
      have hrest := ih hwf (a + 1) k (Nat.lt_of_succ_lt_succ hk)
      rwa [Nat.add_assoc, Nat.add_comm 1 k] at hrest

/-- Writing words lists no address but the old ones and those below the end of what is written. -/
theorem Memory.mem_writeWords {m : Memory} {a : Nat} {ws : List Word} {c : Cell} (h : c ∈ m.writeWords a ws) :
    c ∈ m ∨ c.1 < a + ws.length := by
  induction ws generalizing m a with
  | nil => exact .inl h
  | cons w ws ih =>
    rw [List.length_cons]
    rcases ih h with hc | hc
    · exact (Memory.mem_write hc).imp id (by omega)
    · exact .inr (by omega)

end Sys2Proof.Machine
end

section
/-! Programs that come to run (70_reset_and_hazards.md R172): the first instruction after reset, and words placed at
pc. -/

namespace Sys2Proof.Machine

@[simp] theorem State.applyReset_product (s : State) : s.applyReset.product = 0#32 :=
  scrambleProduct_of_zero (.inl (s.applyReset_slot _))

/-- Under the product 0 four words run as encoded. -/
theorem Encoded.instr_zero (e : Encoded) :
    e.instr 0#32 = (Operation.ofNumber (baseOf e.word0)).instr e.op1 e.op2 e.result := by
  rw [Encoded.instr, (effOf_eq_base_iff _ _).2 rfl]

/-- Settles O40: after reset the words at pc are the program's first four, and the product is 0. -/
theorem firstInstructionAfterResetRunsAsEncoded : Obligations.FirstInstructionAfterResetRunsAsEncoded := by
  intro s word0 op1 op2 result rest hlen
  have hlength : 4 ≤ (word0 :: op1 :: op2 :: result :: rest).length := by simp
  generalize hprogram : word0 :: op1 :: op2 :: result :: rest = ws at hlen hlength
  have hstart : Startable (s.loadProgram ws).applyReset := State.applyReset_startable hlen
  have hlt : sint (s.loadProgram ws).applyReset.pc < ((s.loadProgram ws).applyReset.progLen : Int) :=
    Int.natCast_pos.2 (by omega : 0 < ws.length)
  have hwords : WordsAtPc (s.loadProgram ws).applyReset ⟨word0, op1, op2, result⟩ := by
    subst hprogram
    exact ⟨s.loadProgram_read (k := 0) (by omega), s.loadProgram_read (k := 1) (by omega),
      s.loadProgram_read (k := 2) (by omega), s.loadProgram_read (k := 3) (by omega)⟩
  refine ⟨(s.loadProgram ws).applyReset.preRecord ⟨word0, op1, op2, result⟩, rfl, ?_⟩
  rw [step_execute hstart hlt hwords, State.applyReset_product, Encoded.instr_zero]

variable {s : State}

/-- Placing words at pc keeps the machine's invariant, where the longer program is well formed. -/
theorem State.placeAtPc_inv (hs : MachineInv s) {ws : List Word} (hmul : ws.length % 4 = 0)
    (hroom : s.pc.toNat + ws.length ≤ 2147483644) : MachineInv (s.placeAtPc ws) := by
  obtain ⟨⟨hlenMul, hlenMax⟩, hvalid, hwf, hbelow⟩ := hs
  have hlenMul : s.progLen % 4 = 0 := hlenMul
  have hlenMax : s.progLen ≤ 2147483644 := hlenMax
  have hpc := hvalid.sint_pc
  obtain ⟨hnonneg, haligned, hle⟩ := hvalid
  have hgrows : s.progLen ≤ (s.placeAtPc ws).progLen := le_max_left ..
  refine ⟨⟨?_, max_le hlenMax hroom⟩, ⟨hnonneg, haligned, ?_⟩, Memory.wf_writeWords _ ws hwf, fun c hc => ?_⟩
  · change max s.progLen (s.pc.toNat + ws.length) % 4 = 0
    omega
  · rw [State.placeAtPc_pc]
    omega
  · rcases Memory.mem_writeWords hc with hold | hnew
    · exact (hbelow c hold).trans_le hgrows
    · exact hnew.trans_le (le_max_right ..)

/-- The words placed are the words at pc. -/
theorem State.placeAtPc_wordsAtPc (hwf : s.prog.wf = true) (e : Encoded) :
    WordsAtPc (s.placeAtPc [e.word0, e.op1, e.op2, e.result]) e :=
  have hread := Memory.read_writeWords hwf s.pc.toNat [e.word0, e.op1, e.op2, e.result]
  ⟨hread 0 (by simp), hread 1 (by simp), hread 2 (by simp), hread 3 (by simp)⟩

/-- Settles O42: the table bits are four words, placed at pc below the new L. -/
theorem placedWordsRunNext : Obligations.PlacedWordsRunNext := by
  intro s nbits w hs hrunning hroom
  obtain ⟨e, he⟩ : ∃ e : Encoded, tableWords nbits w = [e.word0, e.op1, e.op2, e.result] :=
    ⟨⟨_, _, _, _⟩, rfl⟩
  have hinv := State.placeAtPc_inv hs (ws := [e.word0, e.op1, e.op2, e.result]) (by simp) hroom
  obtain ⟨-, hvalid, hwf, -⟩ := hs
  rw [State.withFetchWord, he]
  have hlt : sint s.pc < ((max s.progLen (s.pc.toNat + 4) : Nat) : Int) := by
    have hpc := hvalid.sint_pc
    omega
  have hstart : Startable (s.placeAtPc [e.word0, e.op1, e.op2, e.result]) := by
    obtain ⟨hlen, hvalid, -⟩ := hinv
    exact ⟨hlen, hvalid, hrunning⟩
  refine ⟨hinv, _, e.instr s.product, [], ?_, rfl, step_execute hstart hlt (State.placeAtPc_wordsAtPc hwf e)⟩
  rfl

/-- A stopped machine shows the code of its terminal condition. -/
theorem State.statusCode_of_stopped {st : Status} (hs : s.state = st.engineState) : s.statusCode = some st.code := by
  rw [State.statusCode, hs, Status.status_engineState, Option.map_some]

theorem State.statusCode_of_running (hs : s.state = .running) : s.statusCode = none := by
  rw [State.statusCode, EngineState.status_eq_none.2 hs, Option.map_none]

/-- Settles O43: the three terminal values of STATE are those of the three conditions. -/
theorem statusCodes : Obligations.StatusCodes := fun _ =>
  ⟨bne_iff_ne, State.statusCode_of_running, State.statusCode_of_stopped (st := .ok),
    State.statusCode_of_stopped (st := .halted), State.statusCode_of_stopped (st := .divisionByZero)⟩

end Sys2Proof.Machine
end
